-- ==== Sys2Proof/Word.lean ====
section
/-! DEFINITION. The word types of the block (00_scope.md R11, R13) and the plain shapes built from
them: an AES column and block (43_aes128.md R201) and the hidden scratch (10_state.md R54). -/

namespace Sys2Proof

/-- A byte (R11). -/
abbrev Byte := BitVec 8

/-- The spec's `u16` (R13). -/
abbrev Half := BitVec 16

/-- A 32-bit register word (R11). -/
abbrev Word := BitVec 32

/-- One column of the AES state, or one key-schedule word: its bytes by row (R201, R205). -/
structure Column where
  r0 : Byte
  r1 : Byte
  r2 : Byte
  r3 : Byte
  deriving DecidableEq, Repr, Inhabited

/-- Sixteen bytes as the 4×4 array of R201: byte `r + 4c` stands in row `r` of column `c`. -/
structure Block where
  c0 : Column
  c1 : Column
  c2 : Column
  c3 : Column
  deriving DecidableEq, Repr, Inhabited

/-- The hidden scratch state (R54): the initialization vector, the counter and keystream blocks, the
plaintext (at most 109 bytes) and the computed and read checksums. -/
structure Scratch where
  iv           : Block
  counterBlock : Block
  keystream    : Block
  plaintext    : Vector Byte 109
  crcCalc      : Half
  crcRead      : Half
  deriving DecidableEq, Repr, Inhabited

end Sys2Proof
end

