-- ==== Sys2Proof/Syntax.lean ====
section
/-! DEFINITION. The commands of the block: one constructor per row of spec/opcode_table.json
(30_encoding.md R102). No command has an operand field or an immediate (R103). -/

namespace Sys2Proof

/-- A command a host writes to CMD (R102). -/
inductive Instr where
  /-- NOP, opcode 0x00 (40_commands.md R134). -/
  | nop
  /-- ARM, opcode 0x01 (R136). -/
  | arm
  /-- DECODE, opcode 0x02 (R141, R152). -/
  | decode
  /-- LOCK_CFG, opcode 0x03 (R138). -/
  | lockCfg
  deriving DecidableEq, Repr

end Sys2Proof
end

