-- ==== Sys2Proof/Transaction.lean ====
section
/-! DEFINITION. What reaches the block from outside: the register names of 10_state.md R33, the
inputs of the block's one total order of steps (20_memory.md R71, R87; 70_reset_and_hazards.md R310),
an access at a platform bus address (20_memory.md R72) and the host-script statements of
30_encoding.md R106 and R107. Types only: what they do is in Sys2Proof/Machine/. -/

namespace Sys2Proof

/-- The registers of the block's register set (R33). -/
inductive Reg where
  | ctrl
  | status
  | cmd
  | length
  | identity
  | key (j : Fin 4)
  | volume
  | target
  | info
  | temp
  | frame (w : Fin 32)
  deriving DecidableEq, Repr

/-- One step of the block's total order (R87), or the reset input. Offsets and sizes are plain
numbers, so that an access the port refuses (R73) can be written down. -/
inductive Input where
  /-- `MemRead(a, n)`: a host read of `n` bytes at register-space offset `a` (R71). -/
  | hostRead (a n : Nat)
  /-- `MemWrite(a, n, v)`: a host write (R71); a write of other than 4 bytes is refused (R73). -/
  | hostWrite (a n : Nat) (v : Word)
  /-- The decoder engine's turn: it completes the running decode, if there is one (R152). -/
  | engineTurn
  /-- The reset input `rst` is asserted and released (R310). -/
  | assertReset
  deriving DecidableEq, Repr

/-- An access at an address of the platform's bus (R72). -/
inductive BusAccess where
  | read (addr n : Nat)
  | write (addr n : Nat) (v : Word)
  deriving DecidableEq, Repr

/-- A step of a host program: a primitive statement of R106, whose register name stands for its offset `a`, or the
loop that `wait` is (R107). -/
inductive HostStep where
  /-- `wr <reg>, <value>`. -/
  | write (a : Nat) (v : Word)
  /-- `rd <reg>`. -/
  | read (a : Nat)
  /-- Repeat `rd STATUS` until bit 0 of the value is 0. -/
  | pollBusy
  deriving DecidableEq, Repr

/-- Who takes the next step of the total order (20_memory.md R87). Which schedules of the two happen is open
(`DECODE_LATENCY`, 70_reset_and_hazards.md R321), so a list of movers is an argument; log entry 12. -/
inductive Mover where
  | host
  | engine
  deriving DecidableEq, Repr

/-- The host-script statements: `wr` and `rd` of R106, the rest the pseudo-statements of R107. -/
inductive Stmt where
  | wr (r : Reg) (v : Word)
  | rd (r : Reg)
  | cmd (i : Instr)
  | ldid (id : Word)
  | ldkey (key : List Byte)
  | ldframe (bytes : List Byte)
  | wait
  | clrerr
  deriving DecidableEq, Repr

end Sys2Proof
end

