-- ==== Sys2Proof/WellFormed.lean ====
section
/-! DEFINITION. Well-formedness. A command has no operands (30_encoding.md R103), so every command is
well formed; the host-script statement `ldkey` has the length R107 gives it. -/

namespace Sys2Proof

/-- No command carries an operand, so none can be ill formed (R103). -/
def Instr.wellFormed : Instr → Bool
  | .nop => true
  | .arm => true
  | .decode => true
  | .lockCfg => true

/-- `ldkey` takes the 16 key bytes `k0 … k15` (R107). R107 gives the bytes of `ldframe` no greatest number, so
every number of them is well formed; what more than the frame buffer's 127 bytes do is the model's reading, log
entry 17. -/
def Stmt.wellFormed : Stmt → Bool
  | .wr _ _ => true
  | .rd _ => true
  | .cmd i => i.wellFormed
  | .ldid _ => true
  | .ldkey key => key.length == 16
  | .ldframe _ => true
  | .wait => true
  | .clrerr => true

end Sys2Proof
end

