-- ==== Sys2Proof/Decode.lean ====
section
/-! DEFINITION. Decoding and encoding of command words (30_encoding.md R100-R105, spec/opcode_table.json).
Decoding is total on all 2^32 words and names why a word is reserved. -/

namespace Sys2Proof

/-- Why a word is no command (R104), or that a list of bytes is shorter than a command word. -/
inductive DecodeError where
  /-- Bits 31:8 are not all zero. -/
  | mbzNotZero
  /-- The opcode is one of 0x04-0xFF. -/
  | opcodeReserved
  /-- Fewer than four bytes. -/
  | truncated
  deriving DecidableEq, Repr

/-- The OPCODE field, bits 7:0 (R100). -/
def opcodeField (v : Word) : Byte := v.extractLsb' 0 8

/-- The MBZ field, bits 31:8 (R100). -/
def mbzField (v : Word) : BitVec 24 := v.extractLsb' 8 24

/-- `decode_cmd` (R101). -/
def decodeWord (v : Word) : Except DecodeError Instr :=
  if mbzField v ≠ 0 then .error .mbzNotZero
  else if opcodeField v = 0x00 then .ok .nop
  else if opcodeField v = 0x01 then .ok .arm
  else if opcodeField v = 0x02 then .ok .decode
  else if opcodeField v = 0x03 then .ok .lockCfg
  else .error .opcodeReserved

/-- The opcode of a command (R102). -/
def Instr.opcode : Instr → Byte
  | .nop => 0x00
  | .arm => 0x01
  | .decode => 0x02
  | .lockCfg => 0x03

/-- The command word of a command: its opcode in bits 7:0 and zeros above (R100). -/
def encode (i : Instr) : Word := i.opcode.setWidth 32

/-- Byte `k` of a register word, byte 0 the least significant (20_memory.md R80). -/
def byteOf (v : Word) (k : Nat) : Byte := v.extractLsb' (8 * k) 8

/-- The four bytes of a register word, the byte at the lowest address first (R80). -/
def bytesOfWord (v : Word) : List Byte := [byteOf v 0, byteOf v 1, byteOf v 2, byteOf v 3]

/-- A register word from its bytes, the least significant first (R80). -/
def wordOfBytes (b0 b1 b2 b3 : Byte) : Word :=
  b0.setWidth 32 ||| b1.setWidth 32 <<< 8 ||| b2.setWidth 32 <<< 16 ||| b3.setWidth 32 <<< 24

/-- The bytes of an encoded command. -/
def encodeBytes (i : Instr) : List Byte := bytesOfWord (encode i)

/-- Decodes the command word at the head of a list of bytes and answers the bytes after it. -/
def decodeBytes : List Byte → Except DecodeError (Instr × List Byte)
  | b0 :: b1 :: b2 :: b3 :: rest =>
    match decodeWord (wordOfBytes b0 b1 b2 b3) with
    | .ok i => .ok (i, rest)
    | .error e => .error e
  | _ => .error .truncated

/-- The command word whose low `nbits` bits are those of `w` and whose other bits are 0. -/
def tableWord (nbits w : Nat) : Word := BitVec.ofNat 32 (w % 2 ^ nbits)

/-- What the decoder reads from the opcode table's numbering of a row's bits: the word is laid out in
its byte order and given to the decoder. -/
def decodeTableWord (nbits w : Nat) : Option Instr :=
  match decodeBytes (bytesOfWord (tableWord nbits w)) with
  | .ok (i, _) => some i
  | .error _ => none

end Sys2Proof
end

