-- ==== Sys2Proof/Config.lean ====
section
/-! DEFINITION. The fixed sizes and constants of 00_scope.md R9, the OPEN parameter `M21_BASE`, and the
free values: constants with no body, which no proof can see the value of (93_implementation_defined.md
I1, I2). `DECODE_LATENCY` is no constant here: it is the place of the engine's turn among the inputs
(70_reset_and_hazards.md R321, R322; log entry 1). -/

namespace Sys2Proof

/-- `MAX_TELEGRAM` (R9): the bytes of the frame buffer. -/
abbrev Config.maxTelegram : Nat := 127

/-- `ID_OFFSET` (R9): the telegram byte where the address field begins. -/
abbrev Config.idOffset : Nat := 3

/-- `ID_BYTES` (R9). -/
abbrev Config.idBytes : Nat := 4

/-- `HEADER_BYTES` (R9): the telegram byte where the ciphertext begins. -/
abbrev Config.headerBytes : Nat := 16

/-- `OUTER_CRC_BYTES` (R9). -/
abbrev Config.outerCrcBytes : Nat := 2

/-- `INNER_CRC_BYTES` (R9). -/
abbrev Config.innerCrcBytes : Nat := 2

/-- `CRC_POLY` (R9). -/
abbrev Config.crcPoly : Half := 0x3D65

/-- `CRC_INIT` (R9). -/
abbrev Config.crcInit : Half := 0x0000

/-- `MARKER_OFFSET` (R9). -/
abbrev Config.markerOffset : Nat := 2

/-- `MARKER_COMPACT` (R9). -/
abbrev Config.markerCompact : Byte := 0x79

/-- `MARKER_LONG` (R9). -/
abbrev Config.markerLong : Byte := 0x78

/-- The size of the register space: offsets 0x000-0xFFF (`OFFSET_WIDTH`, R9; 20_memory.md R70). -/
abbrev Config.registerSpace : Nat := 0x1000

/-- The first offset of the frame window (`FRAME_WINDOW`, R9). -/
abbrev Config.frameWindow : Nat := 0x100

/-- `M21_BASE` (R9, R72): the platform's base address of the register space. OPEN: no rule depends on it. -/
opaque Config.m21Base : Nat

/-- The byte drawn for frame index `i` by draw `d`: the value of a frame byte that nothing has written
since the reset that made the draw (10_state.md R57, decision D21). A free value: log entry 2. -/
opaque Config.freeFrameByte (d i : Nat) : Byte

/-- The scratch contents of draw `d`, after reset and after a completion (10_state.md R57,
40_commands.md R152, I2). A free value: log entry 3. -/
opaque Config.freeScratch (d : Nat) : Scratch

end Sys2Proof
end

