-- ==== Sys2Proof/Machine/State.lean ====
section
/-! DEFINITION. The block's state as plain data (10_state.md R32-R57), the reasons a step can stop, and
the state after reset (R57, 70_reset_and_hazards.md R310). -/

namespace Sys2Proof.Machine

/-- The decode phase, the block's one piece of sequencing state (R32). -/
inductive Phase where
  | idle
  | busy
  deriving DecidableEq, Repr

/-- The result codes of STATUS.RESULT (60_exceptions.md R280). Codes 8-15 are never posted, so they
have no constructor. -/
inductive ResultCode where
  /-- 0: no decode has completed since reset, ARM or the current DECODE start. -/
  | none
  /-- 1: every stage passed. -/
  | ok
  /-- 2: raised by the Validator (R282). -/
  | identityMismatch
  /-- 3: raised by the Decryptor (R283). -/
  | malformedLength
  /-- 4: raised by the Integrity Checker (R284). -/
  | checksumMismatch
  /-- 5: raised by the Field Extractor (R285). -/
  | unknownLayout
  /-- 6: raised by the Field Extractor (R286). -/
  | shortRecord
  /-- 7: raised by the configuration check (R287). -/
  | notConfigured
  deriving DecidableEq, Repr

/-- The five decoded fields (00_scope.md glossary, 10_state.md R48-R51). The temperatures are raw
two's-complement bytes (R51). -/
structure Reading where
  volume             : Word
  target             : Word
  infoCode           : Half
  flowTemperature    : Byte
  ambientTemperature : Byte
  deriving DecidableEq, Repr

/-- The faults of the port. The spec has the model RECORD them (20_memory.md R73, 60_exceptions.md R291,
70_reset_and_hazards.md R324): they are kept in `State.faults` and the run goes on, so no step answers
with one. -/
inductive Fault where
  /-- `BusError(a, n)`: recorded by a host transaction of `n` bytes at offset `a` that is not an aligned
  word inside the register space (R73). Safe: a claim takes "none recorded" as a premise (R73). -/
  | busError (a n : Nat)
  deriving DecidableEq, Repr

/-- The reasons a step can be refused. -/
inductive Refusal where
  /-- An instruction that has no meaning yet, by its mnemonic; no arm of `exec` answers with it. Safe:
  the model stops where the block goes on. -/
  | notModelled (mnemonic : String)
  deriving DecidableEq, Repr

/-- What the port answered in the step just taken (20_memory.md R71, R73). The model's own view of the
port's output, no state of the block (log entry 4). -/
inductive Answer where
  /-- The step was no host transaction. -/
  | quiet
  /-- A read returned this word (R76). -/
  | readData (v : Word)
  /-- A write was taken (R77), also when a gate dropped its effect. -/
  | writeDone
  /-- A read was answered with a bus error; it returns this word, 0 (R73). -/
  | readBusError (v : Word)
  /-- A write was answered with a bus error (R73). -/
  | writeBusError
  deriving DecidableEq, Repr

/-- The frame buffer's written bytes: (index, byte) cells by rising index. An index that is not listed
holds no written byte (10_state.md R52). -/
abbrev Memory := List Host.Cell

/-- The block's state. STATUS is stored by its fields (R35); BUSY is the view of `phase` (R36). -/
structure State where
  /-- The decode phase (R32). -/
  phase     : Phase
  /-- CTRL.IRQ_EN (R34). -/
  irqEn     : Bool
  /-- STATUS.DONE (R37). -/
  done      : Bool
  /-- STATUS.VALID (R38). -/
  valid     : Bool
  /-- STATUS.CFG_LOCKED (R39). -/
  cfgLocked : Bool
  /-- STATUS.RESULT (R40). -/
  result    : ResultCode
  /-- STATUS.ERR_CMD (R41). -/
  errCmd    : Bool
  /-- STATUS.ERR_BUSY (R42). -/
  errBusy   : Bool
  /-- STATUS.ERR_LOCKED (R43). -/
  errLocked : Bool
  /-- LENGTH bits 7:0 (R45). -/
  length    : Byte
  /-- IDENTITY (R46). -/
  identity  : Word
  /-- KEY0 (R47). -/
  key0      : Word
  /-- KEY1 (R47). -/
  key1      : Word
  /-- KEY2 (R47). -/
  key2      : Word
  /-- KEY3 (R47). -/
  key3      : Word
  /-- VOLUME (R48). -/
  volume    : Word
  /-- TARGET (R49). -/
  target    : Word
  /-- INFO bits 15:0 (R50). -/
  info      : Half
  /-- TEMP bits 15:0: ambient above flow (R51). -/
  temp      : Half
  /-- The bytes of the frame buffer written since the last reset (R52). -/
  frame     : Memory
  /-- The hidden scratch (R54). -/
  scratch   : Scratch
  /-- The faults recorded so far, oldest first (20_memory.md R73, 60_exceptions.md R291). -/
  faults    : List Fault
  /-- The model's own: the steps still to come, oldest first (20_memory.md R87; log entry 1). -/
  inputs    : List Input
  /-- The model's own: what the port answered in the step just taken (log entry 4). -/
  answer    : Answer
  /-- The model's own: the next unused draw of a free value (log entry 5). -/
  draws     : Nat
  /-- The model's own: the draw that gives the frame bytes not written since the last reset (log entry 5). -/
  frameDraw : Nat
  deriving DecidableEq, Repr

/-- The block right after reset (R57): every register and field 0, `phase` IDLE, no frame byte written
and the scratch unspecified; no input is pending (log entry 1). -/
def State.reset : State where
  phase     := .idle
  irqEn     := false
  done      := false
  valid     := false
  cfgLocked := false
  result    := .none
  errCmd    := false
  errBusy   := false
  errLocked := false
  length    := 0
  identity  := 0
  key0      := 0
  key1      := 0
  key2      := 0
  key3      := 0
  volume    := 0
  target    := 0
  info      := 0
  temp      := 0
  frame     := []
  scratch   := Config.freeScratch 0
  faults    := []
  inputs    := []
  answer    := .quiet
  draws     := 1
  frameDraw := 0

end Sys2Proof.Machine
end

