-- ==== Sys2Proof/Machine/Ops.lean ====
section
/-! DEFINITION. The named operations over the frame buffer and the registers, the write gates
(20_memory.md R78, R79), posting and acknowledging a result (60_exceptions.md R292, R293: what plays the
part of taking an exception and of returning from it), reset (70_reset_and_hazards.md R310) and the
record of a bus error (20_memory.md R73). -/

namespace Sys2Proof.Machine

/-! ## The frame buffer -/

/-- The byte written at `a`, if one was. -/
def Memory.get? (m : Memory) (a : Nat) : Option Byte :=
  match m with
  | [] => none
  | (b, v) :: rest => if b = a then some v else Memory.get? rest a

/-- Writes the byte `v` at `a`, keeping the cells in rising order. -/
def Memory.set (m : Memory) (a : Nat) (v : Byte) : Memory :=
  match m with
  | [] => [(a, v)]
  | (b, u) :: rest =>
    if a < b then (a, v) :: (b, u) :: rest
    else if a = b then (a, v) :: rest
    else (b, u) :: Memory.set rest a v

/-- The canonical form: indices strictly rising, each one of the frame buffer's 127 (R52). An index that
is not listed holds no written byte, so no listed byte can equal what an unlisted index holds. -/
def Memory.wf (m : Memory) : Bool :=
  match m with
  | [] => true
  | (a, _) :: rest => decide (a < Config.maxTelegram) && rest.all (fun c => decide (a < c.1)) && Memory.wf rest

/-- `F[i]` (R52): the byte written there since the last reset, else its free draw (R57, D21). Index 127
is the window byte that is not part of the buffer and reads 0 (R53). -/
def State.frameByte (s : State) (i : Nat) : Byte :=
  if i < Config.maxTelegram then
    match Memory.get? s.frame i with
    | some v => v
    | none => Config.freeFrameByte s.frameDraw i
  else 0

/-- `F[i] <- v`; the byte written to index 127 is ignored (R53). -/
def State.setFrameByte (s : State) (i : Nat) (v : Byte) : State :=
  if i < Config.maxTelegram then { s with frame := Memory.set s.frame i v } else s

/-- Every byte of the frame buffer 0x00 (40_commands.md R136). -/
def zeroFrame : Memory := (List.range Config.maxTelegram).map (fun i => (i, 0))

/-- `for i in 0..126: F[i] <- 0x00` (R136). -/
def State.clearFrame (s : State) : State := { s with frame := zeroFrame }

/-! ## The scratch -/

/-- The all-zero scratch (R54). -/
def zeroScratch : Scratch where
  iv           := ⟨⟨0, 0, 0, 0⟩, ⟨0, 0, 0, 0⟩, ⟨0, 0, 0, 0⟩, ⟨0, 0, 0, 0⟩⟩
  counterBlock := ⟨⟨0, 0, 0, 0⟩, ⟨0, 0, 0, 0⟩, ⟨0, 0, 0, 0⟩, ⟨0, 0, 0, 0⟩⟩
  keystream    := ⟨⟨0, 0, 0, 0⟩, ⟨0, 0, 0, 0⟩, ⟨0, 0, 0, 0⟩, ⟨0, 0, 0, 0⟩⟩
  plaintext    := Vector.replicate 109 0
  crcCalc      := 0
  crcRead      := 0

/-- `scratch <- all zero` (R54, R136, R141). -/
def State.clearScratch (s : State) : State := { s with scratch := zeroScratch }

/-- The scratch becomes unspecified: a new draw (40_commands.md R152, I2; log entry 3). -/
def State.scrambleScratch (s : State) : State :=
  { s with scratch := Config.freeScratch s.draws, draws := s.draws + 1 }

/-! ## The result state -/

/-- Clears DONE, VALID and RESULT and the four result registers: what ARM and the start of DECODE share
(40_commands.md R136, R141). -/
def State.clearResults (s : State) : State :=
  { s with
    done := false, valid := false, result := .none
    volume := 0, target := 0, info := 0, temp := 0 }

/-- `post(code, reading)` (40_commands.md R152, 60_exceptions.md R292): the four result registers, RESULT,
VALID, DONE = 1, and `phase` back to IDLE. -/
def State.post (s : State) (code : ResultCode) (rd : Reading) : State :=
  { s with
    volume := rd.volume
    target := rd.target
    info   := rd.infoCode
    temp   := rd.ambientTemperature.setWidth 16 <<< 8 ||| rd.flowTemperature.setWidth 16
    result := code
    valid  := decide (code = .ok)
    done   := true
    phase  := .idle }

/-- The acknowledgement of a completed decode (60_exceptions.md R293): DONE is cleared, and `irq` drops
with it. -/
def State.acknowledge (s : State) : State := { s with done := false }

/-! ## Sticky error bits and the write gates -/

/-- `reg(STATUS).ERR_CMD <- 1` (10_state.md R41). -/
def State.raiseErrCmd (s : State) : State := { s with errCmd := true }

/-- `reg(STATUS).ERR_BUSY <- 1` (R42). -/
def State.raiseErrBusy (s : State) : State := { s with errBusy := true }

/-- `reg(STATUS).ERR_LOCKED <- 1` (R43). -/
def State.raiseErrLocked (s : State) : State := { s with errLocked := true }

/-- `gate_busy()` (20_memory.md R78): the guarded write happens in IDLE; in BUSY it only sets ERR_BUSY. -/
def gateBusy (s : State) (write : State → State) : State :=
  match s.phase with
  | .idle => write s
  | .busy => s.raiseErrBusy

/-- `gate_lock()` (R79): the guarded write happens while the configuration is unlocked; else it only sets
ERR_LOCKED. -/
def gateLock (s : State) (write : State → State) : State :=
  if s.cfgLocked then s.raiseErrLocked else write s

/-- Both gates in their order, `gate_lock` only when `gate_busy` passed (R77). -/
def gateConfig (s : State) (write : State → State) : State := gateBusy s (fun t => gateLock t write)

/-! ## Registers written by the port -/

/-- `reg(LENGTH) <- zext_32(v[7:0])` (R77; 10_state.md R45). -/
def State.setLength (s : State) (v : Word) : State := { s with length := v.extractLsb' 0 8 }

/-- `reg(IDENTITY) <- v` (R77). -/
def State.setIdentity (s : State) (v : Word) : State := { s with identity := v }

/-- `reg(KEY<j>) <- v` (R77). -/
def State.setKey (s : State) (j : Fin 4) (v : Word) : State :=
  match j with
  | 0 => { s with key0 := v }
  | 1 => { s with key1 := v }
  | 2 => { s with key2 := v }
  | 3 => { s with key3 := v }

/-- `reg(KEY<j>)` (10_state.md R47). -/
def State.keyWord (s : State) (j : Fin 4) : Word :=
  match j with
  | 0 => s.key0
  | 1 => s.key1
  | 2 => s.key2
  | 3 => s.key3

/-- `reg(STATUS).CFG_LOCKED <- 1` (40_commands.md R138). -/
def State.lockConfig (s : State) : State := { s with cfgLocked := true }

/-- `phase <- BUSY` (R141). -/
def State.becomeBusy (s : State) : State := { s with phase := .busy }

/-! ## The port, reset and bus errors -/

/-- The state in which the step of the input at the head of `inputs` runs: that input is taken off, and
the port is quiet until the step answers. -/
def State.consume (s : State) (rest : List Input) : State := { s with inputs := rest, answer := .quiet }

/-- The port answers `a`. -/
def State.respond (s : State) (a : Answer) : State := { s with answer := a }

/-- Records `BusError(a, n)` (20_memory.md R73): it is never cleared, and no state of the block changes. -/
def State.recordBusError (s : State) (a n : Nat) : State := { s with faults := s.faults ++ [.busError a n] }

/-- The `check` of R73: a word transaction at an aligned offset of the register space. -/
def accessOk (a n : Nat) : Bool := decide (n = 4) && decide (a % 4 = 0) && decide (a ≤ 0xFFC)

/-- What asserting `rst` does (70_reset_and_hazards.md R310): every piece of the block's state to its reset
value, with the frame buffer and the scratch drawn anew. The inputs still to come, the port's answer
and the recorded faults are no state of the block and stay (20_memory.md R73: never cleared). -/
def State.resetBlock (s : State) : State :=
  { State.reset with
    inputs := s.inputs
    answer := s.answer
    faults := s.faults
    scratch := Config.freeScratch s.draws
    draws := s.draws + 1
    frameDraw := s.draws }

end Sys2Proof.Machine
end

