-- ==== Sys2Proof/Machine/Operands.lean ====
section
/-! DEFINITION. The operand forms: the register map (10_state.md R33), the byte maps of IDENTITY, KEY and
the frame window (R46, R47, R52), little-endian assembly and sign reading (00_scope.md R14, R15), and the
platform's bus address (20_memory.md R72). -/

namespace Sys2Proof.Machine

/-! ## The register map -/

/-- The byte offset of a register (R33). -/
def regOffset : Reg → Nat
  | .ctrl => 0x000
  | .status => 0x004
  | .cmd => 0x008
  | .length => 0x00C
  | .identity => 0x010
  | .key j => 0x020 + 4 * j.val
  | .volume => 0x040
  | .target => 0x044
  | .info => 0x048
  | .temp => 0x04C
  | .frame w => Config.frameWindow + 4 * w.val

/-- The registers that have one offset of their own, in the order of R33. -/
def singleRegs : List Reg :=
  [.ctrl, .status, .cmd, .length, .identity, .key 0, .key 1, .key 2, .key 3, .volume, .target, .info, .temp]

/-- The frame word at an aligned offset of the frame window, 0x100-0x17C (R33). -/
def frameRegAt (a : Nat) : Option Reg :=
  if Config.frameWindow ≤ a ∧ a ≤ 0x17C ∧ a % 4 = 0 then
    some (.frame (Fin.ofNat 32 ((a - Config.frameWindow) / 4)))
  else none

/-- The register that occupies an offset, if one does (R33; none: reserved, 20_memory.md R75). -/
def regAt (a : Nat) : Option Reg :=
  match singleRegs.find? (fun r => regOffset r == a) with
  | some r => some r
  | none => frameRegAt a

/-- The register-space offset that the bus address `addr` selects on a platform that puts the block at
`base` (R72); none when the address is outside the block's 4 KiB. -/
def portOffset (base addr : Nat) : Option Nat :=
  if base ≤ addr ∧ addr < base + Config.registerSpace then some (addr - base) else none

/-- The port transaction an access at a bus address makes of the block (R72). -/
def busInputAt (base : Nat) : BusAccess → Option Input
  | .read addr n => (portOffset base addr).map (fun a => .hostRead a n)
  | .write addr n v => (portOffset base addr).map (fun a => .hostWrite a n v)

/-- The same on the platform the block stands on: its base is the OPEN parameter `M21_BASE` (R72). -/
def busInput (x : BusAccess) : Option Input := busInputAt Config.m21Base x

/-! ## Assembly of bytes -/

/-- `le16(a, i)` (00_scope.md R15) of a byte sequence. -/
def le16 (a : Nat → Byte) (i : Nat) : Half :=
  (a i).setWidth 16 ||| (a (i + 1)).setWidth 16 <<< 8

/-- `le32(a, i)` (R15) of a byte sequence. -/
def le32 (a : Nat → Byte) (i : Nat) : Word :=
  (a i).setWidth 32 ||| (a (i + 1)).setWidth 32 <<< 8 ||| (a (i + 2)).setWidth 32 <<< 16
    ||| (a (i + 3)).setWidth 32 <<< 24

/-- `s8(b)` (R14): the byte read as an `i8`. -/
def s8 (b : Byte) : Int := if b.toNat < 128 then b.toNat else (b.toNat : Int) - 256

/-- `P[i]` of a byte list. No stage reads past its end (45_extractor.md R254, 42_decryptor.md R184). -/
def byteAt (p : List Byte) (i : Nat) : Byte := p.getD i 0

/-- The half-open range `a[i..i+n)` of a byte sequence (R12). -/
def slice (a : Nat → Byte) (i n : Nat) : List Byte := (List.range n).map (fun k => a (i + k))

/-! ## Byte maps of the registers -/

/-- `identity[i] = reg(IDENTITY)[31-8i : 24-8i]` (R46). -/
def identityByte (v : Word) (i : Nat) : Byte := v.extractLsb' (24 - 8 * i) 8

/-- The column of key bytes that a KEY word holds: `key[k]` is byte `k mod 4` of KEY`<k div 4>` (R47). -/
def keyColumn (v : Word) : Column := ⟨byteOf v 0, byteOf v 1, byteOf v 2, byteOf v 3⟩

/-- The 16 key bytes `key[0..16)` (R47). -/
def State.key (s : State) : Block :=
  ⟨keyColumn s.key0, keyColumn s.key1, keyColumn s.key2, keyColumn s.key3⟩

/-- Word `w` of the frame window (R52); byte 127 reads 0 (R53). -/
def State.frameWord (s : State) (w : Fin 32) : Word :=
  le32 s.frameByte (4 * w.val)

/-- A write of word `w` of the frame window writes its four bytes (R52, 20_memory.md R77); byte 127 is
ignored (R53). -/
def State.setFrameWord (s : State) (w : Fin 32) (v : Word) : State :=
  (((s.setFrameByte (4 * w.val) (byteOf v 0)).setFrameByte (4 * w.val + 1) (byteOf v 1)).setFrameByte
    (4 * w.val + 2) (byteOf v 2)).setFrameByte (4 * w.val + 3) (byteOf v 3)

end Sys2Proof.Machine
end

