-- ==== Sys2Proof/Machine/Flags.lean ====
section
/-! DEFINITION. The fields of CTRL and STATUS as the host reads and writes them (10_state.md R34-R43), the
numbers of the result codes (60_exceptions.md R280) and the interrupt output (10_state.md R55). -/

namespace Sys2Proof.Machine

/-- The number of a result code (R280). -/
def ResultCode.code : ResultCode → BitVec 4
  | .none => 0
  | .ok => 1
  | .identityMismatch => 2
  | .malformedLength => 3
  | .checksumMismatch => 4
  | .unknownLayout => 5
  | .shortRecord => 6
  | .notConfigured => 7

/-- A one-bit field as a word: `zext_32` of it (00_scope.md R14). -/
def flagWord (b : Bool) : Word := (BitVec.ofBool b).setWidth 32

/-- STATUS.BUSY reads 1 exactly when `phase = BUSY` (R36). -/
def State.busy (s : State) : Bool := decide (s.phase = .busy)

/-- CTRL as read (20_memory.md R76). -/
def State.ctrlWord (s : State) : Word := flagWord s.irqEn

/-- STATUS as read (20_memory.md R76). -/
def State.statusWord (s : State) : Word :=
  flagWord s.errLocked <<< 10 ||| flagWord s.errBusy <<< 9 ||| flagWord s.errCmd <<< 8
    ||| s.result.code.setWidth 32 <<< 4 ||| flagWord s.cfgLocked <<< 3 ||| flagWord s.valid <<< 2
    ||| flagWord s.done <<< 1 ||| flagWord s.busy

/-- A host write to CTRL: only IRQ_EN is written (R34). -/
def State.writeCtrl (s : State) (v : Word) : State := { s with irqEn := v.getLsbD 0 }

/-- Clears ERR_CMD, ERR_BUSY and ERR_LOCKED where the written bit is 1 (R35). -/
def State.clearErrors (s : State) (v : Word) : State :=
  { s with
    errCmd := s.errCmd && !v.getLsbD 8
    errBusy := s.errBusy && !v.getLsbD 9
    errLocked := s.errLocked && !v.getLsbD 10 }

/-- A host write to STATUS (R35): each W1C bit whose written bit is 1 is cleared, and nothing else changes.
Clearing DONE is the acknowledgement (60_exceptions.md R293). -/
def State.writeStatus (s : State) (v : Word) : State :=
  if v.getLsbD 1 then (s.clearErrors v).acknowledge else s.clearErrors v

/-- The interrupt output `irq = CTRL.IRQ_EN & STATUS.DONE` (R55). -/
def State.irq (s : State) : Bool := s.irqEn && s.done

end Sys2Proof.Machine
end

