-- ==== Sys2Proof/Machine/Commands.lean ====
section
/-! DEFINITION. The meaning of each command (40_commands.md R130-R141): a host write of its command word to
CMD, which `gate_busy` lets through in IDLE and drops with ERR_BUSY in BUSY (20_memory.md R78). -/

namespace Sys2Proof.Machine

/-- `cmd_nop()` (R134): nothing. -/
def cmdNop (s : State) : State := s

/-- `cmd_arm()` (R136). -/
def cmdArm (s : State) : State := ((s.clearResults.setLength 0).clearFrame).clearScratch

/-- `cmd_lock_cfg()` (R138). -/
def cmdLockCfg (s : State) : State := s.lockConfig

/-- `cmd_decode_start()` (R141). -/
def cmdDecodeStart (s : State) : State := (s.clearResults.clearScratch).becomeBusy

/-- NOP (R134). -/
def execNop (s : State) : Host.Outcome State Fault Refusal := .next (gateBusy s cmdNop)

/-- ARM (R136). -/
def execArm (s : State) : Host.Outcome State Fault Refusal := .next (gateBusy s cmdArm)

/-- LOCK_CFG (R138). -/
def execLockCfg (s : State) : Host.Outcome State Fault Refusal := .next (gateBusy s cmdLockCfg)

/-- DECODE, its start part (R141); the completion part is the engine's step (R152). -/
def execDecode (s : State) : Host.Outcome State Fault Refusal := .next (gateBusy s cmdDecodeStart)

end Sys2Proof.Machine
end

