-- ==== Sys2Proof/Machine/Dispatch.lean ====
section
/-! DEFINITION. The dispatch of a command to its meaning (40_commands.md R130). -/

namespace Sys2Proof.Machine

def exec (i : Instr) (s : State) : Host.Outcome State Fault Refusal :=
  match i with
  | .nop => Sys2Proof.Machine.execNop s
  | .arm => Sys2Proof.Machine.execArm s
  | .decode => Sys2Proof.Machine.execDecode s
  | .lockCfg => Sys2Proof.Machine.execLockCfg s

end Sys2Proof.Machine
end

