-- ==== Sys2Proof/Machine/Aes.lean ====
section
/-! DEFINITION. The AES-128 forward cipher in full (43_aes128.md R200-R207). -/

namespace Sys2Proof.Machine

/-! ## Bytes, columns and blocks (R201) -/

/-- Bytewise XOR of two columns. -/
def Column.xor (a b : Column) : Column := ⟨a.r0 ^^^ b.r0, a.r1 ^^^ b.r1, a.r2 ^^^ b.r2, a.r3 ^^^ b.r3⟩

/-- `f` on every byte of a column. -/
def Column.map (f : Byte → Byte) (a : Column) : Column := ⟨f a.r0, f a.r1, f a.r2, f a.r3⟩

/-- The byte in row `r` of a column. -/
def Column.row (a : Column) (r : Nat) : Byte :=
  match r with
  | 0 => a.r0
  | 1 => a.r1
  | 2 => a.r2
  | _ => a.r3

/-- Column `c` of a block. -/
def Block.col (b : Block) (c : Nat) : Column :=
  match c with
  | 0 => b.c0
  | 1 => b.c1
  | 2 => b.c2
  | _ => b.c3

/-- Byte `k` of a block: row `k mod 4` of column `k div 4` (R201). -/
def Block.byte (b : Block) (k : Nat) : Byte := Column.row (Block.col b (k / 4)) (k % 4)

/-- `load`: the block whose byte `k` is `a k` (R201). -/
def Block.load (a : Nat → Byte) : Block :=
  ⟨⟨a 0, a 1, a 2, a 3⟩, ⟨a 4, a 5, a 6, a 7⟩, ⟨a 8, a 9, a 10, a 11⟩, ⟨a 12, a 13, a 14, a 15⟩⟩

/-- The four bytes of a column, row 0 first. -/
def Column.toList (a : Column) : List Byte := [a.r0, a.r1, a.r2, a.r3]

/-- `store`: the 16 bytes of a block (R201). -/
def Block.toList (b : Block) : List Byte :=
  Column.toList b.c0 ++ Column.toList b.c1 ++ Column.toList b.c2 ++ Column.toList b.c3

/-! ## GF(2^8) (R202) -/

/-- `xtime(a)` (R202). -/
def xtime (a : Byte) : Byte := a <<< 1 ^^^ (if a.getLsbD 7 then 0x1B else 0x00)

/-- `gmul(a, 2)` (R202). -/
def gmul2 (a : Byte) : Byte := xtime a

/-- `gmul(a, 3)` (R202). -/
def gmul3 (a : Byte) : Byte := xtime a ^^^ a

/-! ## SubBytes (R203) -/

/-- The rows of the SBOX table of R203, row `h` holding `SBOX[16h]` to `SBOX[16h + 15]`, leftmost first. -/
def sboxRows : List (BitVec 128) :=
  [0x637C777BF26B6FC53001672BFED7AB76, 0xCA82C97DFA5947F0ADD4A2AF9CA472C0,
   0xB7FD9326363FF7CC34A5E5F171D83115, 0x04C723C31896059A071280E2EB27B275,
   0x09832C1A1B6E5AA0523BD6B329E32F84, 0x53D100ED20FCB15B6ACBBE394A4C58CF,
   0xD0EFAAFB434D338545F9027F503C9FA8, 0x51A3408F929D38F5BCB6DA2110FFF3D2,
   0xCD0C13EC5F974417C4A77E3D645D1973, 0x60814FDC222A908846EEB814DE5E0BDB,
   0xE0323A0A4906245CC2D3AC629195E479, 0xE7C8376D8DD54EA96C56F4EA657AAE08,
   0xBA78252E1CA6B4C6E8DD741F4BBD8B8A, 0x703EB5664803F60E613557B986C11D9E,
   0xE1F8981169D98E949B1E87E9CE5528DF, 0x8CA1890DBFE6426841992D0FB054BB16]

/-- `SBOX[b]`: row the high nibble, column the low nibble (R203). -/
def sbox (b : Byte) : Byte :=
  (sboxRows.getD (b.toNat / 16) 0).extractLsb' (8 * (15 - b.toNat % 16)) 8

/-- Multiplication in GF(2^8) by shift and add (R202), over the low `n` bits of `b`. -/
def gfMulBits (a b : Byte) : Nat → Byte
  | 0 => 0
  | n + 1 => gfMulBits a b n ^^^ (if b.getLsbD n then Nat.repeat xtime n a else 0)

/-- Multiplication in GF(2^8) (R202). -/
def gfMul (a b : Byte) : Byte := gfMulBits a b 8

/-- The square of a byte in GF(2^8). -/
def gfSquare (a : Byte) : Byte := gfMul a a

/-- The inverse in GF(2^8), as the 254th power; it takes 0 to 0 (R203). -/
def gfInv (a : Byte) : Byte :=
  let a2 := gfSquare a
  let a4 := gfSquare a2
  let a8 := gfSquare a4
  let a16 := gfSquare a8
  let a32 := gfSquare a16
  let a64 := gfSquare a32
  let a128 := gfSquare a64
  gfMul a2 (gfMul a4 (gfMul a8 (gfMul a16 (gfMul a32 (gfMul a64 a128)))))

/-- The affine transform of the S-box's generating definition (R203). -/
def sboxAffine (b : Byte) : Byte :=
  b ^^^ b.rotateLeft 1 ^^^ b.rotateLeft 2 ^^^ b.rotateLeft 3 ^^^ b.rotateLeft 4 ^^^ 0x63

/-- `SubBytes` (R203). -/
def subBytes (b : Block) : Block :=
  ⟨Column.map sbox b.c0, Column.map sbox b.c1, Column.map sbox b.c2, Column.map sbox b.c3⟩

/-! ## ShiftRows (R204) -/

/-- `ShiftRows`: `s'[r][c] = s[r][(c + r) mod 4]` (R204). -/
def shiftRows (b : Block) : Block :=
  ⟨⟨b.c0.r0, b.c1.r1, b.c2.r2, b.c3.r3⟩, ⟨b.c1.r0, b.c2.r1, b.c3.r2, b.c0.r3⟩,
   ⟨b.c2.r0, b.c3.r1, b.c0.r2, b.c1.r3⟩, ⟨b.c3.r0, b.c0.r1, b.c1.r2, b.c2.r3⟩⟩

/-! ## MixColumns and AddRoundKey (R206) -/

/-- `MixColumns` on one column (R206). -/
def mixColumn (a : Column) : Column :=
  ⟨gmul2 a.r0 ^^^ gmul3 a.r1 ^^^ a.r2 ^^^ a.r3, a.r0 ^^^ gmul2 a.r1 ^^^ gmul3 a.r2 ^^^ a.r3,
   a.r0 ^^^ a.r1 ^^^ gmul2 a.r2 ^^^ gmul3 a.r3, gmul3 a.r0 ^^^ a.r1 ^^^ a.r2 ^^^ gmul2 a.r3⟩

/-- `MixColumns` (R206). -/
def mixColumns (b : Block) : Block := ⟨mixColumn b.c0, mixColumn b.c1, mixColumn b.c2, mixColumn b.c3⟩

/-- The XOR of a block with a round key, column by column (R205, R206). -/
def Block.xor (a b : Block) : Block :=
  ⟨Column.xor a.c0 b.c0, Column.xor a.c1 b.c1, Column.xor a.c2 b.c2, Column.xor a.c3 b.c3⟩

/-! ## Key expansion (R205) -/

/-- `RCON[1..10]` (R205), entry 0 unused. -/
def rcon : List Byte := [0x00, 0x01, 0x02, 0x04, 0x08, 0x10, 0x20, 0x40, 0x80, 0x1B, 0x36]

/-- `RotWord` (R205). -/
def rotWord (t : Column) : Column := ⟨t.r1, t.r2, t.r3, t.r0⟩

/-- `SubWord` (R205). -/
def subWord (t : Column) : Column := Column.map sbox t

/-- What the previous word contributes to word `i` (R205). -/
def scheduleMix (i : Nat) (t : Column) : Column :=
  if i % 4 = 0 then Column.xor (subWord (rotWord t)) ⟨rcon.getD (i / 4) 0, 0, 0, 0⟩ else t

/-- The key schedule after `n` words beyond the first four, the newest word first (R205). -/
def scheduleRev (key : Block) : Nat → List Column
  | 0 => [key.c3, key.c2, key.c1, key.c0]
  | n + 1 =>
    let ws := scheduleRev key n
    Column.xor (ws.getD 3 default) (scheduleMix (n + 4) (ws.getD 0 default)) :: ws

/-- The words `w[0..44)` of the key schedule (R205). -/
def keySchedule (key : Block) : List Column := (scheduleRev key 40).reverse

/-- Round key `n` of a key schedule: its words `w[4n..4n+4)` (R205). -/
def roundKey (ws : List Column) (n : Nat) : Block :=
  ⟨ws.getD (4 * n) default, ws.getD (4 * n + 1) default, ws.getD (4 * n + 2) default,
   ws.getD (4 * n + 3) default⟩

/-! ## The cipher (R207) -/

/-- Round `n` of 1..9 (R207). -/
def aesRound (ws : List Column) (n : Nat) (s : Block) : Block :=
  Block.xor (mixColumns (shiftRows (subBytes s))) (roundKey ws n)

/-- The last round, with no MixColumns (R207). -/
def aesLastRound (ws : List Column) (s : Block) : Block :=
  Block.xor (shiftRows (subBytes s)) (roundKey ws 10)

/-- The rounds of R207 with the key schedule `ws`. -/
def aesRounds (ws : List Column) (s : Block) : Block :=
  aesLastRound ws
    ([1, 2, 3, 4, 5, 6, 7, 8, 9].foldl (fun t n => aesRound ws n t) (Block.xor s (roundKey ws 0)))

/-- `AESEncrypt128(key, in)` (R207). -/
def aesEncrypt128 (key input : Block) : Block := aesRounds (keySchedule key) input

end Sys2Proof.Machine
end

