-- ==== Sys2Proof/Machine/Decryptor.lean ====
section
/-! DEFINITION. The Frame Decryptor (42_decryptor.md R180-R190): the length check, the initialization
vector, the counter blocks and AES-128-CTR. -/

namespace Sys2Proof.Machine

/-- `C = length - 18` on integers, so possibly negative (R181; 00_scope.md R13). -/
def ciphertextLength (length : Byte) : Int :=
  (length.toNat : Int) - (Config.headerBytes + Config.outerCrcBytes : Nat)

/-- `check_length(length)` with its three tests in order (R182): the ciphertext length, or MALFORMED_LENGTH. -/
def checkLength (length : Byte) : Except ResultCode Nat :=
  let c := ciphertextLength length
  if c < 0 ∨ c > Config.maxTelegram then .error .malformedLength
  else if length.toNat > Config.maxTelegram then .error .malformedLength
  else if c < Config.innerCrcBytes then .error .malformedLength
  else .ok c.toNat

/-- `build_iv(F)` (R185): `F[1..9) ++ [F[10]] ++ F[12..16) ++ zeros(3)`. -/
def buildIv (frame : Nat → Byte) : Block :=
  ⟨⟨frame 1, frame 2, frame 3, frame 4⟩, ⟨frame 5, frame 6, frame 7, frame 8⟩,
   ⟨frame 10, frame 12, frame 13, frame 14⟩, ⟨frame 15, 0, 0, 0⟩⟩

/-- `from_bytes_be16`: the 16 bytes of a block as one big-endian number (R187). -/
def blockToNumber (b : Block) : BitVec 128 :=
  (Block.toList b).foldl (fun n x => n <<< 8 ||| x.setWidth 128) 0

/-- `to_bytes_be16`: the block whose bytes are a 128-bit number, most significant first (R187). -/
def blockOfNumber (n : BitVec 128) : Block :=
  Block.load (fun k => n.extractLsb' (8 * (15 - k)) 8)

/-- `inc128(X)` (R187). -/
def inc128 (b : Block) : Block := blockOfNumber (blockToNumber b + 1)

/-- Counter block `j`: `CB_j = inc128^j(IV)` (R187). -/
def counterBlock (iv : Block) : Nat → Block
  | 0 => iv
  | j + 1 => inc128 (counterBlock iv j)

/-- Keystream block `j`: `KS_j = AESEncrypt128(key, CB_j)` (R188). -/
def keystreamBlock (key iv : Block) (j : Nat) : Block := aesEncrypt128 key (counterBlock iv j)

/-- The XOR of keystream blocks `j`, `j + 1`, … with the ciphertext bytes that remain, `n` blocks of them;
a last block is truncated to the bytes there are (R188). -/
def ctrFrom (key iv : Block) (j : Nat) (n : Nat) (ct : List Byte) : List Byte :=
  match n with
  | 0 => []
  | m + 1 =>
    List.zipWith (fun x k => x ^^^ k) (ct.take 16) (Block.toList (keystreamBlock key iv j))
      ++ ctrFrom key iv (j + 1) m (ct.drop 16)

/-- `ctr_decrypt(key, IV, CT)` over `ceil(C / 16)` blocks (R188). -/
def ctrDecrypt (key iv : Block) (ct : List Byte) : List Byte :=
  ctrFrom key iv 0 ((ct.length + 15) / 16) ct

end Sys2Proof.Machine
end

