-- ==== Sys2Proof/Machine/Extractor.lean ====
section
/-! DEFINITION. The Field Extractor (45_extractor.md R250-R262): the layout dispatch and the field decode. -/

namespace Sys2Proof.Machine

/-- A row of the layout table (R252): the plaintext offsets of the five fields and the least `C`. -/
structure Layout where
  vol  : Nat
  tgt  : Nat
  info : Nat
  flow : Nat
  amb  : Nat
  need : Nat
  deriving DecidableEq, Repr

/-- The layout of marker 0x79 (R252). -/
def compactLayout : Layout where
  vol := 9
  tgt := 13
  info := 7
  flow := 17
  amb := 18
  need := 19

/-- The layout of marker 0x78 (R252). -/
def longLayout : Layout where
  vol := 10
  tgt := 16
  info := 6
  flow := 22
  amb := 25
  need := 26

/-- The layout a marker selects; none for an unknown marker (R251, R253). -/
def layoutOf (marker : Byte) : Option Layout :=
  if marker = Config.markerCompact then some compactLayout
  else if marker = Config.markerLong then some longLayout
  else none

/-- The five fields at a layout's offsets (R255-R259). -/
def readFields (p : List Byte) (lay : Layout) : Reading where
  volume             := le32 (byteAt p) lay.vol
  target             := le32 (byteAt p) lay.tgt
  infoCode           := le16 (byteAt p) lay.info
  flowTemperature    := byteAt p lay.flow
  ambientTemperature := byteAt p lay.amb

/-- `extract(P, C)` (R251). -/
def extract (p : List Byte) (c : Nat) : Except ResultCode Reading :=
  if c < Config.markerOffset + 1 then .error .shortRecord
  else
    match layoutOf (byteAt p Config.markerOffset) with
    | none => .error .unknownLayout
    | some lay => if c < lay.need then .error .shortRecord else .ok (readFields p lay)

end Sys2Proof.Machine
end

