-- ==== Sys2Proof/Machine/Integrity.lean ====
section
/-! DEFINITION. The Integrity Checker (44_integrity.md R230-R235): CRC-16/EN13757. -/

namespace Sys2Proof.Machine

/-- One bit of the CRC (R233). -/
def crcBit (crc : Half) (bit : Bool) : Half :=
  if (crc &&& 0x8000 != 0) ^^ bit then crc <<< 1 ^^^ Config.crcPoly else crc <<< 1

/-- One byte of the CRC, most significant bit first (R233). -/
def crcByte (crc : Half) (b : Byte) : Half :=
  [7, 6, 5, 4, 3, 2, 1, 0].foldl (fun c k => crcBit c (b.getLsbD k)) crc

/-- `crc16_en13757(d)`, with its final complement (R233). -/
def crc16 (d : List Byte) : Half := ~~~(d.foldl crcByte Config.crcInit)

/-- The checksum the plaintext carries, low byte first (R231). -/
def crcRead (p : List Byte) : Half := le16 (byteAt p) 0

/-- The checksummed region `P[2..C)` (R232). -/
def crcRegion (p : List Byte) (c : Nat) : List Byte := (p.take c).drop Config.innerCrcBytes

/-- `check_integrity(P, C)` (R234). -/
def checkIntegrity (p : List Byte) (c : Nat) : Except ResultCode Unit :=
  if crc16 (crcRegion p c) = crcRead p then .ok () else .error .checksumMismatch

end Sys2Proof.Machine
end

