-- ==== Sys2Proof/Machine/Validator.lean ====
section
/-! DEFINITION. The configuration check (40_commands.md R151) and the Frame Validator (41_validator.md
R170-R173). A stage that raises `Reject(code)` answers `.error code`. -/

namespace Sys2Proof.Machine

/-- `check_config(locked)` (R151). -/
def checkConfig (locked : Bool) : Except ResultCode Unit :=
  if locked then .ok () else .error .notConfigured

/-- All four address bytes match: `F[6 - i] = identity[i]` for `i` in 0..3 (R171, R173). -/
def identityMatches (identity frame : Nat → Byte) : Bool :=
  (List.range Config.idBytes).all (fun i => frame (Config.idOffset + 3 - i) == identity i)

/-- `validate(identity, F, length)` (R171, R172). DESIGN CHOICE between two rules (log entry 16): at LENGTH 7
and 8 the comparison reads the bytes at `length - 2` and above that the address field holds, as R171 says and
against 10_state.md R56's second invariant. -/
def validate (identity frame : Nat → Byte) (length : Byte) : Except ResultCode Unit :=
  if length.toNat < Config.idOffset + Config.idBytes then .error .identityMismatch
  else if identityMatches identity frame then .ok ()
  else .error .identityMismatch

end Sys2Proof.Machine
end

