-- ==== Sys2Proof/Machine/Pipeline.lean ====
section
/-! DEFINITION. The decode pipeline (40_commands.md R150, R153) and the completion of a decode, the decoder
engine's step (R152). -/

namespace Sys2Proof.Machine

/-- `ZERO_READING` (R153). -/
def zeroReading : Reading where
  volume             := 0
  target             := 0
  infoCode           := 0
  flowTemperature    := 0
  ambientTemperature := 0

/-- The ciphertext region `F[16..16+C)` (42_decryptor.md R181). -/
def ciphertext (frame : Nat → Byte) (c : Nat) : List Byte := slice frame Config.headerBytes c

/-- The plaintext of a telegram whose ciphertext has `c` bytes (42_decryptor.md R188). -/
def plaintext (key : Block) (frame : Nat → Byte) (c : Nat) : List Byte :=
  ctrDecrypt key (buildIv frame) (ciphertext frame c)

/-- What follows the length check (R150): decrypt, check the checksum, extract. -/
def decryptAndExtract (key : Block) (frame : Nat → Byte) (c : Nat) : Except ResultCode Reading := do
  checkIntegrity (plaintext key frame c) c
  extract (plaintext key frame c) c

/-- The stages in order, each gating the next (R150). -/
def pipelineStages (locked : Bool) (key : Block) (identity frame : Nat → Byte) (length : Byte) :
    Except ResultCode Reading := do
  checkConfig locked
  validate identity frame length
  let c ← checkLength length
  decryptAndExtract key frame c

/-- `decode_pipeline` (R150): the result code and the reading, zero unless the code is OK (R153). -/
def decodePipeline (locked : Bool) (key : Block) (identity frame : Nat → Byte) (length : Byte) :
    ResultCode × Reading :=
  match pipelineStages locked key identity frame length with
  | .ok rd => (.ok, rd)
  | .error code => (code, zeroReading)

/-- The outcome of the decode of the telegram and configuration that stand in the registers (R152). -/
def State.decodeOutcome (s : State) : ResultCode × Reading :=
  decodePipeline s.cfgLocked s.key (identityByte s.identity) s.frameByte s.length

/-- `decode_complete()` (R152): posts the outcome; the scratch becomes unspecified. -/
def State.completeDecode (s : State) : State :=
  (s.post s.decodeOutcome.1 s.decodeOutcome.2).scrambleScratch

/-- The decoder engine's turn (R152): the completion is enabled exactly when `phase = BUSY`; in IDLE the
engine has no step to take. -/
def State.runEngine (s : State) : State :=
  match s.phase with
  | .idle => s
  | .busy => s.completeDecode

end Sys2Proof.Machine
end

