-- ==== Sys2Proof/Machine/Port.lean ====
section
/-! DEFINITION. The register port (20_memory.md R71-R79) and what one input does: a host read or write, the
decoder engine's turn, or reset. -/

namespace Sys2Proof.Machine

/-- What a read of a register returns (R76). CMD and the KEY registers are write-only and read 0. -/
def State.readReg (s : State) : Reg → Word
  | .ctrl => s.ctrlWord
  | .status => s.statusWord
  | .cmd => 0
  | .length => s.length.setWidth 32
  | .identity => s.identity
  | .key _ => 0
  | .volume => s.volume
  | .target => s.target
  | .info => s.info.setWidth 32
  | .temp => s.temp.setWidth 32
  | .frame w => s.frameWord w

/-- What a read at an aligned offset returns (R76); a reserved offset reads 0 (R75). -/
def State.readOffset (s : State) (a : Nat) : Word :=
  match regAt a with
  | some r => s.readReg r
  | none => 0

/-- `MemRead(a, n)` (R73, R76): the port answers, and nothing of the block changes (R84). -/
def hostRead (a n : Nat) (s : State) : State :=
  if accessOk a n then s.respond (.readData (s.readOffset a))
  else (s.recordBusError a n).respond (.readBusError 0)

/-- `execute_command(v)` behind `gate_busy` (40_commands.md R130): a command has its meaning, and a
reserved word sets ERR_CMD (30_encoding.md R104). In BUSY every word is dropped alike, so it does not matter
that the gate stands after the decoding here. -/
def writeCmd (v : Word) (s : State) : Host.Outcome State Fault Refusal :=
  match decodeWord v with
  | .ok i => exec i s
  | .error _ => .next (gateBusy s State.raiseErrCmd)

/-- What a write of a register does (R77). -/
def writeReg (r : Reg) (v : Word) (s : State) : Host.Outcome State Fault Refusal :=
  match r with
  | .ctrl => .next (s.writeCtrl v)
  | .status => .next (s.writeStatus v)
  | .cmd => writeCmd v s
  | .length => .next (gateBusy s (fun t => t.setLength v))
  | .identity => .next (gateConfig s (fun t => t.setIdentity v))
  | .key j => .next (gateConfig s (fun t => t.setKey j v))
  | .volume => .next s
  | .target => .next s
  | .info => .next s
  | .temp => .next s
  | .frame w => .next (gateBusy s (fun t => t.setFrameWord w v))

/-- What a write at an aligned offset does (R77); at a reserved offset, nothing (R75). -/
def writeOffset (a : Nat) (v : Word) (s : State) : Host.Outcome State Fault Refusal :=
  match regAt a with
  | some r => writeReg r v s
  | none => .next s

/-- `MemWrite(a, n, v)` (R73, R77). -/
def hostWrite (a n : Nat) (v : Word) (s : State) : Host.Outcome State Fault Refusal :=
  if accessOk a n then writeOffset a v (s.respond .writeDone)
  else .next ((s.recordBusError a n).respond .writeBusError)

/-- What one input does (R87). -/
def runInput (x : Input) (s : State) : Host.Outcome State Fault Refusal :=
  match x with
  | .hostRead a n => .next (hostRead a n s)
  | .hostWrite a n v => hostWrite a n v s
  | .engineTurn => .next s.runEngine
  | .assertReset => .next s.resetBlock

/-- What happens when no input is left: the completion of a running decode is eventually taken
(70_reset_and_hazards.md R322), and an idle block stays as it is (R324). -/
def runQuiet (s : State) : Host.Outcome State Fault Refusal := .next s.runEngine

/-- Puts a host write of the command word `v` to CMD before every other input. -/
def State.placeCommand (s : State) (v : Word) : State :=
  { s with inputs := .hostWrite (regOffset .cmd) 4 v :: s.inputs }

end Sys2Proof.Machine
end

