-- ==== Sys2Proof/Machine/Step.lean ====
section
/-! DEFINITION. One step of the block: one host transaction, one turn of the decoder engine, or one reset
(20_memory.md R83, R87). -/

namespace Sys2Proof.Machine

/-- One step: the oldest input, or, when none is left, the engine's turn. -/
def step (s : State) : Host.Outcome State Fault Refusal :=
  match s.inputs with
  | [] => runQuiet (s.consume [])
  | x :: rest => runInput x (s.consume rest)

/-- `s` with the instruction word `w` of `nbits` bits where the next step takes it: a host write of that
command word to CMD is the oldest input (40_commands.md R130; log entry 1). -/
def State.withFetchWord (s : State) (nbits w : Nat) : State := s.placeCommand (tableWord nbits w)

end Sys2Proof.Machine
end

