-- ==== Sys2Proof/Machine/Script.lean ====
section
/-! DEFINITION. Host scripts (30_encoding.md R106, R107): what each statement expands to, the inputs of the block
that a host program becomes under a schedule, and the listing form of a transaction. -/

namespace Sys2Proof.Machine

/-! ## What each statement expands to -/

/-- Word `w` of a byte sequence, with 0 past its end: what `ldkey` and `ldframe` write (R107). -/
def packWord (bytes : List Byte) (w : Nat) : Word := le32 (byteAt bytes) (4 * w)

/-- `wr <reg>, <value>` for a register of the block (R106). -/
def wrReg (r : Reg) (v : Word) : HostStep := .write (regOffset r) v

/-- `ldkey k0 … k15` (R107). -/
def ldkeySteps (key : List Byte) : List HostStep :=
  [wrReg (.key 0) (packWord key 0), wrReg (.key 1) (packWord key 1),
   wrReg (.key 2) (packWord key 2), wrReg (.key 3) (packWord key 3)]

/-- `wr FRAME<w>, <value>`: the name stands for `0x100 + 4w` (R106). DESIGN CHOICE (log entry 17): also where no
FRAME register has the number `w`. -/
def wrFrame (w : Nat) (v : Word) : HostStep := .write (Config.frameWindow + 4 * w) v

/-- `ldframe b0 … b(n-1)`: the FRAME words, then LENGTH = n (R107). R107 leaves the greatest `n` open; DESIGN CHOICE
(log entry 17): it is expanded alike for every `n`. -/
def ldframeSteps (bytes : List Byte) : List HostStep :=
  (List.range ((bytes.length + 3) / 4)).map (fun w => wrFrame w (packWord bytes w))
    ++ [wrReg .length (BitVec.ofNat 32 bytes.length)]

/-- The expansion of a statement (R106, R107). -/
def Stmt.steps : Stmt → List HostStep
  | .wr r v => [wrReg r v]
  | .rd r => [.read (regOffset r)]
  | .cmd i => [wrReg .cmd (encode i)]
  | .ldid v => [wrReg .identity v]
  | .ldkey key => ldkeySteps key
  | .ldframe bytes => ldframeSteps bytes
  | .wait => [.pollBusy]
  | .clrerr => [wrReg .status 0x00000702]

/-- The expansion of a script, in program order (20_memory.md R87). -/
def scriptSteps (script : List Stmt) : List HostStep := script.flatMap Stmt.steps

/-! ## A host program as inputs of the block -/

/-- The port transaction that a step of a host program issues (R106); the loop issues its poll. -/
def stepInput : HostStep → Input
  | .write a v => .hostWrite a 4 v
  | .read a => .hostRead a 4
  | .pollBusy => .hostRead (regOffset .status) 4

/-- After the port's answer the host takes the same step again: a poll whose value has bit 0 set (R107). -/
def goesOnPolling (h : HostStep) (a : Answer) : Bool :=
  match h, a with
  | .pollBusy, .readData v => v.getLsbD 0
  | _, _ => false

/-- The block after one input, with no input to come. -/
def State.afterInput (s : State) (x : Input) : State :=
  match runInput x (s.consume []) with
  | .next t => t
  | .fault _ => s.consume []
  | .refused _ => s.consume []

/-- The inputs that a host program becomes from `s` when the movers come in the given order. An engine's turn may
come before, between and after any of the program's transactions. DESIGN CHOICE (log entry 12): when the movers
run out, what is left of the program goes on with an engine's turn before each of its transactions, which ends a
loop at its next poll; every fair schedule (70_reset_and_hazards.md R322) is one of these. -/
def scheduledInputs (s : State) (program : List HostStep) (movers : List Mover) : List Input :=
  match movers with
  | [] => program.flatMap (fun h => [.engineTurn, stepInput h])
  | .engine :: ms => .engineTurn :: scheduledInputs (s.afterInput .engineTurn) program ms
  | .host :: ms =>
    match program with
    | [] => scheduledInputs s [] ms
    | h :: rest =>
      stepInput h :: scheduledInputs (s.afterInput (stepInput h))
        (if goesOnPolling h (s.afterInput (stepInput h)).answer then h :: rest else rest) ms

/-- A block with a script as its inputs to come, under a schedule. A script holds no reset (R106). -/
def State.withScript (s : State) (script : List Stmt) (movers : List Mover) : State :=
  { s with inputs := scheduledInputs s (scriptSteps script) movers }

/-! ## The listing form (R106) -/

/-- One hexadecimal digit. -/
def hexDigit (n : Nat) : Char :=
  ['0', '1', '2', '3', '4', '5', '6', '7', '8', '9', 'A', 'B', 'C', 'D', 'E', 'F'].getD n '?'

/-- The low `digits` hexadecimal digits of a number, most significant first. -/
def hexDigits (n : Nat) : Nat → List Char
  | 0 => []
  | d + 1 => hexDigit (n / 16 ^ d % 16) :: hexDigits n d

/-- An offset as a listing line shows it: the three digits of R106's example, which hold every offset of the 4 KiB
space. DESIGN CHOICE (log entry 18): an offset above 0xFFF, which R106 gives no form, is shown with all its digits. -/
def listedOffset (a : Nat) : List Char := hexDigits a (max 3 (a.log2 / 4 + 1))

/-- The listing line of a port transaction: `W <offset> <value>` or `R <offset>` (R106). An engine's turn and a reset
are no transactions and have none. DESIGN CHOICE (log entry 18): a transaction of another size than 4, which no
statement of R106 makes, has none either. -/
def listingLine : Input → Option (List Char)
  | .hostRead a n => if n = 4 then some ('R' :: ' ' :: listedOffset a) else none
  | .hostWrite a n v => if n = 4 then some ('W' :: ' ' :: listedOffset a ++ ' ' :: hexDigits v.toNat 8) else none
  | .engineTurn => none
  | .assertReset => none

end Sys2Proof.Machine
end

