-- ==== Sys2Proof/Safety.lean ====
section
/-! DEFINITION. The terms claims use: the invariant of the block's reachable states (10_state.md R56 and
95_test_vectors.md section 9), the end of a run (70_reset_and_hazards.md R324), and when a telegram is
wholly written (R315). -/

namespace Sys2Proof.Machine

/-- What holds in every reachable state (R56's first invariant; 95_test_vectors.md section 9), with the form of the model's
own fields: the frame buffer in its canonical form, and the frame's draw already made. -/
structure State.Inv (s : State) : Prop where
  frame_wf      : Memory.wf s.frame = true
  valid_iff_ok  : s.valid = true ↔ s.result = .ok
  invalid_zero  : s.valid = false → s.volume = 0 ∧ s.target = 0 ∧ s.info = 0 ∧ s.temp = 0
  busy_cleared  : s.phase = .busy → s.done = false ∧ s.valid = false ∧ s.result = .none
  valid_locked  : s.valid = true → s.cfgLocked = true
  draw_made     : s.frameDraw < s.draws

/-- `n` steps of the block, ending early where a step answers no next state. -/
def State.run (n : Nat) (s : State) : Host.Outcome State Fault Refusal :=
  match n with
  | 0 => .next s
  | m + 1 =>
    match step s with
    | .next t => State.run m t
    | .fault r => .fault r
    | .refused r => .refused r

/-- "No BusError recorded": the premise of every claim about the end of a run (R324). -/
abbrev State.noBusError (s : State) : Prop := s.faults = []

/-- A run has ended: the host's program is over and no completion is outstanding (R324). -/
abbrev State.runEnded (s : State) : Prop := s.inputs = [] ∧ s.phase = .idle

/-- A successful end of a run (R324). -/
abbrev State.successfulEnd (s : State) : Prop := s.runEnded ∧ s.noBusError

/-- The end state of a run (R324): every register of 10_state.md R33, the frame buffer, `phase` and `irq`. -/
structure EndState where
  phase    : Phase
  irq      : Bool
  ctrl     : Word
  status   : Word
  length   : Word
  identity : Word
  key      : Block
  volume   : Word
  target   : Word
  info     : Word
  temp     : Word
  frame    : List Byte
  deriving DecidableEq, Repr

/-- The end state that `s` shows (R324). The scratch is not part of it. -/
def State.endState (s : State) : EndState where
  phase    := s.phase
  irq      := s.irq
  ctrl     := s.readReg .ctrl
  status   := s.readReg .status
  length   := s.readReg .length
  identity := s.readReg .identity
  key      := s.key
  volume   := s.readReg .volume
  target   := s.readReg .target
  info     := s.readReg .info
  temp     := s.readReg .temp
  frame    := slice s.frameByte 0 Config.maxTelegram

/-- The frame indices a decode of `length` bytes can read: the address field `[3..7)` when it is inside the
telegram (41_validator.md R171, R172), and, when the length check passes, `[1..9)`, 10 and `[12..length-2)`
(42_decryptor.md R184, R315). At LENGTH 7 and 8 the address field reaches past `length - 3`, where
10_state.md R56 says otherwise: log entry 16. -/
abbrev readByDecode (length : Byte) (i : Nat) : Prop :=
  (7 ≤ length.toNat ∧ 3 ≤ i ∧ i < 7) ∨
  (20 ≤ length.toNat ∧ length.toNat ≤ 127 ∧
    ((1 ≤ i ∧ i < 9) ∨ i = 10 ∨ (12 ≤ i ∧ i + 2 < length.toNat)))

/-- The host has written every frame byte the decode reads since the last reset (R315). -/
def State.telegramWritten (s : State) : Prop :=
  ∀ i, i < Config.maxTelegram → readByDecode s.length i → (Memory.get? s.frame i).isSome = true

end Sys2Proof.Machine
end

