-- ==== Sys2Proof/Certificates/Slice0/Obligations.lean ====
section
/-! DEFINITION. The statements for the provers. Each docstring names the rules of spec/ it formalises. -/

open Sys2Proof Sys2Proof.Machine

/-! ## Reset and the whole machine -/

/-- R57: what reset leaves. That the unspecified frame bytes and scratch are free draws is the model's form for
them (log entries 2 and 3). -/
def Obligations.ResetLeavesTheSpecifiedValues : Prop :=
  State.reset.phase = .idle ∧ State.reset.readReg .ctrl = 0 ∧ State.reset.readReg .status = 0 ∧
  State.reset.busy = false ∧ State.reset.done = false ∧ State.reset.valid = false ∧
  State.reset.cfgLocked = false ∧ State.reset.result = .none ∧ State.reset.errCmd = false ∧
  State.reset.errBusy = false ∧ State.reset.errLocked = false ∧
  State.reset.readReg .length = 0 ∧ State.reset.readReg .identity = 0 ∧
  State.reset.key0 = 0 ∧ State.reset.key1 = 0 ∧ State.reset.key2 = 0 ∧ State.reset.key3 = 0 ∧
  State.reset.readReg .volume = 0 ∧ State.reset.readReg .target = 0 ∧
  State.reset.readReg .info = 0 ∧ State.reset.readReg .temp = 0 ∧
  (∀ i, i < 127 → State.reset.frameByte i = Config.freeFrameByte State.reset.frameDraw i) ∧
  (∃ d, State.reset.scratch = Config.freeScratch d) ∧ State.reset.irq = false

/-- R310, with the model's own fields (log entries 1, 5, 6): the reset input in any phase leaves the reset
state of the block, draws the frame buffer and the scratch anew, and keeps the recorded faults. -/
def Obligations.ResetInputResetsInEveryPhase : Prop :=
  ∀ (s : State) (rest : List Input), s.inputs = .assertReset :: rest →
    ∃ t, step s = .next t ∧
      t = { State.reset with
              inputs := rest, faults := s.faults, scratch := t.scratch, draws := t.draws
              frameDraw := t.frameDraw } ∧
      (∀ i, i < 127 → t.frameByte i = Config.freeFrameByte s.draws i) ∧
      t.scratch = Config.freeScratch s.draws ∧ s.draws < t.draws

/-- R311: reset is the only event that clears CFG_LOCKED, and it clears the key at the same time. -/
def Obligations.OnlyResetClearsTheLock : Prop :=
  ∀ s t : State, step s = .next t →
    (s.cfgLocked = true → t.cfgLocked = false → ∃ rest, s.inputs = .assertReset :: rest) ∧
    (∀ rest, s.inputs = .assertReset :: rest →
      t.cfgLocked = false ∧ t.key0 = 0 ∧ t.key1 = 0 ∧ t.key2 = 0 ∧ t.key3 = 0) ∧
    (s.cfgLocked = true → t.keyWord ≠ s.keyWord → ∃ rest, s.inputs = .assertReset :: rest)

/-- R59: after LOCK_CFG the key and the identity are constant until reset, over every run. -/
def Obligations.LockedConfigurationIsConstantUntilReset : Prop :=
  ∀ (n : Nat) (s t : State), s.cfgLocked = true → Input.assertReset ∉ s.inputs → s.run n = .next t →
    t.cfgLocked = true ∧ t.key = s.key ∧ t.identity = s.identity

/-- R105, R155, R302 for command words and decodes: every step answers a next state, whatever the state and the
input. For an access that R73 refuses this rests on the model's choice to record BusError (R291) and let the run
go on (log entry 6), and for a step with no input left on the model's engine turn (log entry 1). -/
def Obligations.EveryStepAnswersANextState : Prop :=
  ∀ s : State, ∃ t, step s = .next t

/-- R56's first invariant and 95_test_vectors.md section 9, with the canonical form of the frame buffer (log entry 2) and the
order of the draws (log entry 5): every step keeps the invariant, from every state that has it. -/
def Obligations.EveryStepKeepsTheInvariant : Prop :=
  ∀ s t : State, s.Inv → step s = .next t → t.Inv

/-- R56's first invariant, with the rest of Inv, at reset. -/
def Obligations.InvariantHoldsAtReset : Prop := State.reset.Inv

/-- R32: `phase` becomes BUSY only when DECODE starts and IDLE only when the engine completes it, or by reset;
no other transition exists, and STATUS.BUSY shows it. That the engine's turn comes when no input is left is
the model's choice (log entry 1). -/
def Obligations.PhaseChangesOnlyByDecodeAndCompletion : Prop :=
  State.reset.phase = .idle ∧
  ∀ s t : State, step s = .next t →
    (s.phase = .idle →
      (t.phase = .busy ↔
        ∃ v rest, s.inputs = .hostWrite 0x008 4 v :: rest ∧ decodeWord v = .ok .decode)) ∧
    (s.phase = .busy →
      (t.phase = .idle ↔
        s.inputs = [] ∨ (∃ rest, s.inputs = .engineTurn :: rest) ∨ (∃ rest, s.inputs = .assertReset :: rest))) ∧
    ((t.readReg .status).getLsbD 0 = true ↔ t.phase = .busy)

/-- R41-R43, R290: an error bit that is set stays set but for a W1C write of it or reset, and one step sets at
most one of the three. -/
def Obligations.ErrorBitsAreSticky : Prop :=
  ∀ s t : State, step s = .next t →
    (s.errCmd = true → t.errCmd = false →
      (∃ v rest, s.inputs = .hostWrite 0x004 4 v :: rest ∧ v.getLsbD 8 = true) ∨
      (∃ rest, s.inputs = .assertReset :: rest)) ∧
    (s.errBusy = true → t.errBusy = false →
      (∃ v rest, s.inputs = .hostWrite 0x004 4 v :: rest ∧ v.getLsbD 9 = true) ∨
      (∃ rest, s.inputs = .assertReset :: rest)) ∧
    (s.errLocked = true → t.errLocked = false →
      (∃ v rest, s.inputs = .hostWrite 0x004 4 v :: rest ∧ v.getLsbD 10 = true) ∨
      (∃ rest, s.inputs = .assertReset :: rest)) ∧
    (s.errCmd = false → t.errCmd = true → t.errBusy = s.errBusy ∧ t.errLocked = s.errLocked) ∧
    (s.errBusy = false → t.errBusy = true → t.errCmd = s.errCmd ∧ t.errLocked = s.errLocked) ∧
    (s.errLocked = false → t.errLocked = true → t.errCmd = s.errCmd ∧ t.errBusy = s.errBusy)

/-- R37: DONE is set by every completion and by nothing else, and cleared by the start of DECODE, by ARM, by a
W1C write of bit 1 and by reset. The engine's turn with no input left is the model's choice (log entry 1). -/
def Obligations.DoneIsSetByCompletionOnly : Prop :=
  ∀ s t : State, step s = .next t →
    (s.phase = .busy → (s.inputs = [] ∨ ∃ rest, s.inputs = .engineTurn :: rest) → t.done = true) ∧
    (s.done = false → t.done = true →
      s.phase = .busy ∧ (s.inputs = [] ∨ ∃ rest, s.inputs = .engineTurn :: rest)) ∧
    (s.done = true → t.done = false →
      (∃ v rest, s.phase = .idle ∧ s.inputs = .hostWrite 0x008 4 v :: rest ∧
        (decodeWord v = .ok .decode ∨ decodeWord v = .ok .arm)) ∨
      (∃ v rest, s.inputs = .hostWrite 0x004 4 v :: rest ∧ v.getLsbD 1 = true) ∨
      (∃ rest, s.inputs = .assertReset :: rest)) ∧
    (∀ v rest, s.phase = .idle → s.inputs = .hostWrite 0x008 4 v :: rest →
      decodeWord v = .ok .decode ∨ decodeWord v = .ok .arm → t.done = false) ∧
    (∀ v rest, s.inputs = .hostWrite 0x004 4 v :: rest → v.getLsbD 1 = true → t.done = false) ∧
    (∀ rest, s.inputs = .assertReset :: rest → t.done = false)

/-! ## Command words -/

/-- R100, R102: the decoder reads back every command the encoder writes, with any bytes after it. -/
def Obligations.DecodeOfEncodeIsTheCommand : Prop :=
  ∀ (i : Instr) (rest : List Byte), decodeBytes (encodeBytes i ++ rest) = .ok (i, rest)

/-- R101: decoding is total, each command has one word, and a reserved word is refused by its name. -/
def Obligations.EachCommandHasExactlyOneWord : Prop :=
  ∀ w : Word,
    (∀ i, decodeWord w = .ok i ↔ w = encode i) ∧
    (decodeWord w = .error .mbzNotZero ↔ w.extractLsb' 8 24 ≠ 0) ∧
    (decodeWord w = .error .opcodeReserved ↔ w.extractLsb' 8 24 = 0 ∧ 0x04 ≤ (w.extractLsb' 0 8).toNat)

/-- R102: the words of the opcode map, and reserved words beside them. -/
def Obligations.OpcodeMapWordsDecode : Prop :=
  decodeTableWord 32 0x00000000 = some .nop ∧ decodeTableWord 32 0x00000001 = some .arm ∧
  decodeTableWord 32 0x00000002 = some .decode ∧ decodeTableWord 32 0x00000003 = some .lockCfg ∧
  decodeTableWord 32 0x00000004 = none ∧ decodeTableWord 32 0x000000FF = none ∧
  decodeTableWord 32 0x00000100 = none ∧ decodeTableWord 32 0x80000002 = none

/-- R130, R90: a step whose input is a host write of a command word to CMD is `exec` of that command, on the
state with the input taken off and the write acknowledged; `withFetchWord` puts such an input first. -/
def Obligations.StepRunsTheDecodedCommand : Prop :=
  (∀ (s : State) (rest : List Input) (v : Word) (i : Instr),
    s.inputs = .hostWrite 0x008 4 v :: rest → decodeWord v = .ok i →
      step s = exec i { s with inputs := rest, answer := .writeDone }) ∧
  (∀ (s : State) (nbits w : Nat) (i : Instr), decodeTableWord nbits w = some i →
      step (s.withFetchWord nbits w) = exec i { s with answer := .writeDone })

/-- R104: which words are reserved, and that one sets ERR_CMD in IDLE and ERR_BUSY in BUSY, with no other
effect. That the port answers the write dropped in BUSY as taken is the model's choice (log entry 4). -/
def Obligations.ReservedWordSetsOneErrorBit : Prop :=
  ∀ (s : State) (rest : List Input) (v : Word),
    ((∃ e, decodeWord v = .error e) ↔
      (v.extractLsb' 8 24 ≠ 0 ∨ 0x04 ≤ (v.extractLsb' 0 8).toNat)) ∧
    ((v.extractLsb' 8 24 ≠ 0 ∨ 0x04 ≤ (v.extractLsb' 0 8).toNat) →
      s.inputs = .hostWrite 0x008 4 v :: rest →
        (s.phase = .idle →
          step s = .next { s with inputs := rest, answer := .writeDone, errCmd := true }) ∧
        (s.phase = .busy →
          step s = .next { s with inputs := rest, answer := .writeDone, errBusy := true }))

/-! ## The four commands -/

/-- R134: NOP completes with nothing changed; in BUSY it sets ERR_BUSY; 0x00000100 is not NOP
and sets ERR_CMD. -/
def Obligations.NopCompletesUnchanged : Prop :=
  decodeWord 0x00000000 = .ok .nop ∧ decodeWord 0x00000100 = .error .mbzNotZero ∧
  ∀ s : State,
    (s.phase = .idle → exec .nop s = .next s) ∧
    (s.phase = .busy → exec .nop s = .next { s with errBusy := true }) ∧
    (s.phase = .idle → ∀ rest, s.inputs = .hostWrite 0x008 4 0x00000100 :: rest →
      step s = .next { s with inputs := rest, answer := .writeDone, errCmd := true })

/-- R136: ARM completes with the result state, LENGTH, every frame byte and the scratch cleared and nothing
else changed; a second ARM changes nothing; `irq` is 0. -/
def Obligations.ArmClearsForANewTelegram : Prop :=
  decodeWord 0x00000001 = .ok .arm ∧
  ∀ s : State, s.phase = .idle →
    ∃ t, exec .arm s = .next t ∧
      t = { s with
              done := false, valid := false, result := .none
              volume := 0, target := 0, info := 0, temp := 0
              length := 0, frame := t.frame, scratch := zeroScratch } ∧
      (∀ i, i < 127 → t.frameByte i = 0x00) ∧ t.irq = false ∧ exec .arm t = .next t

/-- R138: LOCK_CFG completes with CFG_LOCKED set and nothing else changed; when already locked, nothing. -/
def Obligations.LockCfgSetsTheLock : Prop :=
  decodeWord 0x00000003 = .ok .lockCfg ∧
  ∀ s : State, s.phase = .idle →
    exec .lockCfg s = .next { s with cfgLocked := true } ∧
    (s.cfgLocked = true → exec .lockCfg s = .next s)

/-- R141: DECODE, the start part, completes with the result state and the scratch cleared and BUSY set; the
frame buffer and LENGTH are not cleared; `irq` is 0. -/
def Obligations.DecodeStartClearsAndBecomesBusy : Prop :=
  decodeWord 0x00000002 = .ok .decode ∧
  ∀ s : State, s.phase = .idle →
    ∃ t, exec .decode s = .next t ∧
      t = { s with
              done := false, valid := false, result := .none
              volume := 0, target := 0, info := 0, temp := 0
              scratch := zeroScratch, phase := .busy } ∧
      t.irq = false ∧ t.busy = true ∧ t.length = s.length ∧ (∀ i, t.frameByte i = s.frameByte i)

/-- R78, R130, R154: while BUSY every command is dropped and only sets ERR_BUSY. -/
def Obligations.CommandWhileBusyOnlySetsErrBusy : Prop :=
  ∀ (i : Instr) (s : State), s.phase = .busy → exec i s = .next { s with errBusy := true }

/-- R134, R138 (frame): NOP writes no field and LOCK_CFG only CFG_LOCKED (each ERR_BUSY in BUSY); neither
changes a register, the scratch or a byte of the frame buffer. -/
def Obligations.NopAndLockCfgFrame : Prop :=
  ∀ s t : State,
    (exec .nop s = .next t →
      t = { s with errBusy := t.errBusy } ∧ ∀ i, t.frameByte i = s.frameByte i) ∧
    (exec .lockCfg s = .next t →
      t = { s with errBusy := t.errBusy, cfgLocked := t.cfgLocked } ∧ ∀ i, t.frameByte i = s.frameByte i)

/-- R136 (frame): ARM leaves the configuration, the lock, CTRL, `phase` and the other error bits alone; it
writes the frame bytes 0 to 126, and in BUSY none of them. -/
def Obligations.ArmFrame : Prop :=
  ∀ s t : State, exec .arm s = .next t →
    t = { s with
            done := t.done, valid := t.valid, result := t.result
            volume := t.volume, target := t.target, info := t.info, temp := t.temp
            length := t.length, frame := t.frame, scratch := t.scratch, errBusy := t.errBusy } ∧
    (∀ i, 127 ≤ i → t.frameByte i = s.frameByte i) ∧
    (s.phase = .busy → ∀ i, t.frameByte i = s.frameByte i)

/-- R141 (frame): DECODE's start leaves the configuration, LENGTH, CTRL and the other error bits alone, and
every byte of the frame buffer reads as before. -/
def Obligations.DecodeStartFrame : Prop :=
  ∀ s t : State, exec .decode s = .next t →
    t = { s with
            done := t.done, valid := t.valid, result := t.result
            volume := t.volume, target := t.target, info := t.info, temp := t.temp
            scratch := t.scratch, errBusy := t.errBusy, phase := t.phase } ∧
    (∀ i, t.frameByte i = s.frameByte i)

/-! ## The completion of a decode -/

/-- R152: the completion posts the pipeline's outcome on the registers and the frame buffer as they stand,
and changes nothing else but the scratch, which becomes unspecified (log entry 3). The engine's turn with no
input left is the model's choice (log entry 1). -/
def Obligations.CompletionPostsThePipelineOutcome : Prop :=
  ∀ (s : State) (rest : List Input),
    (s.inputs = .engineTurn :: rest ∨ (s.inputs = [] ∧ rest = [])) → s.phase = .busy →
    ∀ (key : Block) (identity : Nat → Byte) (code : ResultCode) (rd : Reading),
      (∀ k, k < 16 → Block.byte key k =
        (s.keyWord (Fin.ofNat 4 (k / 4))).extractLsb' (8 * (k % 4)) 8) →
      (∀ i, i < 4 → identity i = s.identity.extractLsb' (24 - 8 * i) 8) →
      decodePipeline s.cfgLocked key identity s.frameByte s.length = (code, rd) →
      step s = .next { s with
        inputs := rest, answer := .quiet
        volume := rd.volume, target := rd.target, info := rd.infoCode
        temp := rd.ambientTemperature ++ rd.flowTemperature
        result := code, valid := decide (code = .ok), done := true, phase := .idle
        scratch := Config.freeScratch s.draws, draws := s.draws + 1 }

/-- R152, R324 (log entry 1): in IDLE the engine has no step to take, and an idle block whose host program is
over stays as it is. -/
def Obligations.IdleEngineTurnChangesNothing : Prop :=
  ∀ (s : State) (rest : List Input),
    (s.inputs = .engineTurn :: rest ∨ (s.inputs = [] ∧ rest = [])) → s.phase = .idle →
      step s = .next { s with inputs := rest, answer := .quiet }

/-- R322, R292, R83, with the model's order of steps (log entry 1): whatever host transactions come first, a running decode completes at the engine's first
turn, or when the host's program is over, and posts the outcome of what stood in the registers at its start. -/
def Obligations.RunningDecodeCompletesAtTheEngineTurn : Prop :=
  ∀ (s : State) (before after : List Input), s.phase = .busy →
    (∀ x, x ∈ before → x ≠ .engineTurn ∧ x ≠ .assertReset) →
    (s.inputs = before ++ .engineTurn :: after ∨ (s.inputs = before ∧ after = [])) →
    ∃ t, s.run (before.length + 1) = .next t ∧ t.phase = .idle ∧ t.done = true ∧ t.inputs = after ∧
      t.result = s.decodeOutcome.1 ∧ t.valid = decide (s.decodeOutcome.1 = .ok) ∧
      t.volume = s.decodeOutcome.2.volume ∧ t.target = s.decodeOutcome.2.target ∧
      t.info = s.decodeOutcome.2.infoCode ∧
      t.temp = s.decodeOutcome.2.ambientTemperature ++ s.decodeOutcome.2.flowTemperature

/-- R289: one decode posts exactly one code, the first failing check in pipeline order. -/
def Obligations.FirstFailingStageGivesTheCode : Prop :=
  ∀ (locked : Bool) (key : Block) (identity frame : Nat → Byte) (length : Byte),
    (decodePipeline locked key identity frame length).1 =
      if locked = false then .notConfigured
      else if length.toNat < 7 ∨ ¬(∀ i, i < 4 → frame (6 - i) = identity i) then .identityMismatch
      else if length.toNat < 20 ∨ 127 < length.toNat then .malformedLength
      else
        let c := length.toNat - 18
        let p := plaintext key frame c
        if crc16 ((p.take c).drop 2) ≠ le16 (byteAt p) 0 then .checksumMismatch
        else if c < 3 then .shortRecord
        else if byteAt p 2 ≠ 0x79 ∧ byteAt p 2 ≠ 0x78 then .unknownLayout
        else if (byteAt p 2 = 0x79 ∧ c < 19) ∨ (byteAt p 2 = 0x78 ∧ c < 26) then .shortRecord
        else .ok

/-- R281: OK is posted exactly when every check passes, and it is the only code with VALID = 1. -/
def Obligations.OkExactlyWhenEveryCheckPasses : Prop :=
  (∀ (locked : Bool) (key : Block) (identity frame : Nat → Byte) (length : Byte),
    (decodePipeline locked key identity frame length).1 = .ok ↔
      locked = true ∧ (∀ i, i < 4 → frame (6 - i) = identity i) ∧
      20 ≤ length.toNat ∧ length.toNat ≤ 127 ∧
      (let c := length.toNat - 18
       let p := plaintext key frame c
       crc16 ((p.take c).drop 2) = le16 (byteAt p) 0 ∧
       ((byteAt p 2 = 0x79 ∧ 19 ≤ c) ∨ (byteAt p 2 = 0x78 ∧ 26 ≤ c)))) ∧
  (∀ s : State, s.completeDecode.valid = true ↔ s.completeDecode.result = .ok)

/-- R153: every result code but OK has the all-zero reading, and its completion posts it with VALID = 0. -/
def Obligations.FailurePostsTheZeroReading : Prop :=
  (∀ (locked : Bool) (key : Block) (identity frame : Nat → Byte) (length : Byte),
    (decodePipeline locked key identity frame length).1 ≠ .ok →
      (decodePipeline locked key identity frame length).2 =
        { volume := 0, target := 0, infoCode := 0, flowTemperature := 0, ambientTemperature := 0 }) ∧
  (∀ s : State, s.completeDecode.result ≠ .ok →
    s.completeDecode.valid = false ∧ s.completeDecode.volume = 0 ∧ s.completeDecode.target = 0 ∧
    s.completeDecode.info = 0 ∧ s.completeDecode.temp = 0)

/-- R280: the numbers of the result codes, as STATUS bits 7:4 show them; the codes 8-15 are never posted. -/
def Obligations.ResultCodeNumbersInStatus : Prop :=
  (∀ s : State, (s.readReg .status).extractLsb' 4 4 = s.result.code ∧ s.result.code.toNat ≤ 7) ∧
  ResultCode.none.code = 0 ∧ ResultCode.ok.code = 1 ∧ ResultCode.identityMismatch.code = 2 ∧
  ResultCode.malformedLength.code = 3 ∧ ResultCode.checksumMismatch.code = 4 ∧
  ResultCode.unknownLayout.code = 5 ∧ ResultCode.shortRecord.code = 6 ∧ ResultCode.notConfigured.code = 7

/-- R174: a telegram whose address differs from IDENTITY, or that is too short to hold one, posts
IDENTITY_MISMATCH (NOT_CONFIGURED when unlocked) with VALID = 0. -/
def Obligations.ForeignTelegramIsRejected : Prop :=
  ∀ (s : State) (rest : List Input), s.inputs = .engineTurn :: rest → s.phase = .busy →
    (le32 s.frameByte 3 ≠ s.identity ∨ s.length.toNat < 7) →
      ∃ t, step s = .next t ∧ t.valid = false ∧
        t.result = if s.cfgLocked then .identityMismatch else .notConfigured

/-- R46, R171, R173: all four address bytes match exactly when the little-endian word at byte 3 is IDENTITY. -/
def Obligations.IdentityMatchIsWordEquality : Prop :=
  ∀ (v : Word) (frame : Nat → Byte), identityMatches (identityByte v) frame = true ↔ le32 frame 3 = v

/-- R171, R184, R315, R56: the outcome depends on the address field when `length ≥ 7`, on the header and the
ciphertext when the length check passes, and on no other frame byte. So, as R56 says, it depends on no byte at
index 0, 9 or 11 or at `length - 2` and above, but at LENGTH 7 and 8, where the model follows R171 against R56
(log entry 16); at every LENGTH, the reading and whether the code is OK do not. -/
def Obligations.UnreadFrameBytesDoNotMatter : Prop :=
  ∀ (locked : Bool) (key : Block) (identity f g : Nat → Byte) (length : Byte),
    ((∀ i, (7 ≤ length.toNat ∧ 3 ≤ i ∧ i < 7) ∨
        (20 ≤ length.toNat ∧ length.toNat ≤ 127 ∧
          ((1 ≤ i ∧ i < 9) ∨ i = 10 ∨ (12 ≤ i ∧ i + 2 < length.toNat))) → f i = g i) →
      decodePipeline locked key identity f length = decodePipeline locked key identity g length) ∧
    (length.toNat ≠ 7 → length.toNat ≠ 8 →
      (∀ i, i ≠ 0 → i ≠ 9 → i ≠ 11 → i + 2 < length.toNat → f i = g i) →
        decodePipeline locked key identity f length = decodePipeline locked key identity g length) ∧
    ((∀ i, i ≠ 0 → i ≠ 9 → i ≠ 11 → i + 2 < length.toNat → f i = g i) →
      (decodePipeline locked key identity f length).2 = (decodePipeline locked key identity g length).2 ∧
      ((decodePipeline locked key identity f length).1 = .ok ↔
        (decodePipeline locked key identity g length).1 = .ok)) ∧
    ((∀ i, i ≠ 0 → i ≠ 9 → i ≠ 11 → f i = g i) →
      decodePipeline locked key identity f length = decodePipeline locked key identity g length)

/-- R315: once the host has written every byte the decode reads, the outcome does not depend on the draw of
the unwritten bytes. At LENGTH 7 and 8 the bytes it reads are the model's choice between R171 and R56 (log
entry 16). -/
def Obligations.WrittenTelegramIgnoresTheDraw : Prop :=
  ∀ (s : State) (d : Nat), s.telegramWritten → State.decodeOutcome { s with frameDraw := d } = s.decodeOutcome

/-! ## The Decryptor -/

/-- R182: the length check passes exactly for 20 to 127, with C = length - 18. -/
def Obligations.LengthCheckPassesFrom20To127 : Prop :=
  ∀ length : Byte,
    checkLength length =
      if 20 ≤ length.toNat ∧ length.toNat ≤ 127 then .ok (length.toNat - 18) else .error .malformedLength

/-- R185, R186: the bytes of the IV, and that two telegrams with different sequence-number fields have
different IVs. -/
def Obligations.IvIsBuiltFromTheHeader : Prop :=
  (∀ f : Nat → Byte,
    Block.toList (buildIv f) = slice f 1 8 ++ [f 10] ++ slice f 12 4 ++ [0x00, 0x00, 0x00]) ∧
  (∀ f g : Nat → Byte, buildIv f = buildIv g → ∀ i, 12 ≤ i → i < 16 → f i = g i)

/-- R187: with the last IV byte 0, counter block `j` below 256 is the IV with byte 15 equal to `j`: the counter
never carries. -/
def Obligations.CounterChangesOnlyTheLastByte : Prop :=
  ∀ (iv : Block) (j : Nat), iv.c3.r3 = 0 → j < 256 →
    counterBlock iv j = { iv with c3 := { iv.c3 with r3 := BitVec.ofNat 8 j } }

/-- R188: byte `t` of the plaintext is the ciphertext byte XOR byte `t mod 16` of keystream block `t div 16`,
and there are as many of them as ciphertext bytes. -/
def Obligations.CtrDecryptIsBytewiseXor : Prop :=
  ∀ (key iv : Block) (ct : List Byte),
    (ctrDecrypt key iv ct).length = ct.length ∧
    ∀ t, t < ct.length →
      byteAt (ctrDecrypt key iv ct) t =
        byteAt ct t ^^^ Block.byte (aesEncrypt128 key (counterBlock iv (t / 16))) (t % 16)

/-- R189: decrypting twice gives the bytes back, so encrypting is the same function. -/
def Obligations.CtrRoundTrip : Prop :=
  ∀ (key iv : Block) (x : List Byte), ctrDecrypt key iv (ctrDecrypt key iv x) = x

/-- R203: SubBytes replaces every byte by its SBOX entry, and the table is the one its generating definition
gives, with the inverse in GF(2^8). -/
def Obligations.SboxTableIsItsDefinition : Prop :=
  (∀ b : Byte, sbox b = sboxAffine (gfInv b)) ∧
  (∀ b : Byte, b ≠ 0 → gfMul b (gfInv b) = 1) ∧ gfInv 0 = 0 ∧
  sbox 0x53 = 0xED ∧ sbox 0x00 = 0x63 ∧
  (∀ (b : Block) (k : Nat), k < 16 → Block.byte (subBytes b) k = sbox (Block.byte b k))

/-- R204, with the layout of R201: ShiftRows rotates row `r` left by `r` positions. -/
def Obligations.ShiftRowsRotatesEachRow : Prop :=
  ∀ (b : Block) (r c : Nat), r < 4 → c < 4 →
    Block.byte (shiftRows b) (r + 4 * c) = Block.byte b (r + 4 * ((c + r) % 4))

/-- R205: the key schedule has 44 words, the first four the key's, and each later one is the XOR of the word
four before it with the mixed previous word. -/
def Obligations.KeyScheduleRecurrence : Prop :=
  ∀ key : Block,
    (keySchedule key).length = 44 ∧
    (∀ i, i < 4 → (keySchedule key).getD i default = Block.col key i) ∧
    (∀ i, 4 ≤ i → i < 44 →
      (keySchedule key).getD i default =
        Column.xor ((keySchedule key).getD (i - 4) default)
          (scheduleMix i ((keySchedule key).getD (i - 1) default)))

/-! ## The Integrity Checker and the Field Extractor -/

/-- R233, R235: the checksum of no bytes is 0xFFFF, and leading zero bytes do not change a checksum. -/
def Obligations.ChecksumIgnoresLeadingZeros : Prop :=
  crc16 [] = 0xFFFF ∧
  ∀ (n : Nat) (d : List Byte), crc16 (List.replicate n 0x00 ++ d) = crc16 d

/-- R236: flipping any single bit of the checksummed bytes changes the checksum, and any single-bit change of
the plaintext turns a pass into CHECKSUM_MISMATCH. -/
def Obligations.ChecksumDetectsEverySingleBitFlip : Prop :=
  (∀ (d : List Byte) (i k : Nat), i < d.length → k < 8 →
    crc16 (d.set i (byteAt d i ^^^ (1#8 <<< k))) ≠ crc16 d) ∧
  (∀ (p : List Byte) (i k : Nat), 2 ≤ p.length → i < p.length → k < 8 →
    checkIntegrity p p.length = .ok () →
      checkIntegrity (p.set i (byteAt p i ^^^ (1#8 <<< k))) p.length = .error .checksumMismatch)

/-- R262: marker 0x79 decodes at the compact offsets, marker 0x78 at the long ones, and any other marker yields
an invalid result with the zero reading. -/
def Obligations.MarkerSelectsTheLayout : Prop :=
  (∀ (p : List Byte) (c : Nat), byteAt p 2 = 0x79 → 19 ≤ c →
    extract p c = .ok { volume := le32 (byteAt p) 9, target := le32 (byteAt p) 13
                        infoCode := le16 (byteAt p) 7, flowTemperature := byteAt p 17
                        ambientTemperature := byteAt p 18 }) ∧
  (∀ (p : List Byte) (c : Nat), byteAt p 2 = 0x78 → 26 ≤ c →
    extract p c = .ok { volume := le32 (byteAt p) 10, target := le32 (byteAt p) 16
                        infoCode := le16 (byteAt p) 6, flowTemperature := byteAt p 22
                        ambientTemperature := byteAt p 25 }) ∧
  (∀ (p : List Byte) (c : Nat), byteAt p 2 ≠ 0x79 → byteAt p 2 ≠ 0x78 → 3 ≤ c →
    extract p c = .error .unknownLayout) ∧
  (∀ (s : State),
    pipelineStages s.cfgLocked s.key (identityByte s.identity) s.frameByte s.length = .error .unknownLayout →
      s.completeDecode.valid = false ∧ s.completeDecode.volume = 0 ∧ s.completeDecode.target = 0 ∧
      s.completeDecode.info = 0 ∧ s.completeDecode.temp = 0)

/-- R254: a record too short for its layout fails closed, and the extractor never reads past `P[C - 1]`. -/
def Obligations.ShortRecordFailsClosed : Prop :=
  (∀ (p : List Byte) (c : Nat),
    (c < 3 ∨ (byteAt p 2 = 0x79 ∧ c < 19) ∨ (byteAt p 2 = 0x78 ∧ c < 26)) →
      extract p c = .error .shortRecord) ∧
  (∀ (p q : List Byte) (c : Nat), (∀ i, i < c → byteAt p i = byteAt q i) → extract p c = extract q c)

/-! ## The register port -/

/-- R76: what a read returns at each offset, in every phase; a read changes no state of the block. A frame
byte that nothing has written reads as its free draw (log entry 2). -/
def Obligations.MemReadReturnsTheRegister : Prop :=
  ∀ (s : State) (rest : List Input),
    let reads := fun (a : Nat) (v : Word) =>
      s.inputs = .hostRead a 4 :: rest → step s = .next { s with inputs := rest, answer := .readData v }
    reads 0x000 (if s.irqEn then 1 else 0) ∧
    reads 0x004 s.statusWord ∧ reads 0x008 0 ∧
    reads 0x00C (s.length.setWidth 32) ∧ reads 0x010 s.identity ∧
    reads 0x020 0 ∧ reads 0x024 0 ∧ reads 0x028 0 ∧ reads 0x02C 0 ∧
    reads 0x040 s.volume ∧ reads 0x044 s.target ∧
    reads 0x048 (s.info.setWidth 32) ∧ reads 0x04C (s.temp.setWidth 32) ∧
    (∀ w, w < 32 → reads (0x100 + 4 * w)
      ((if w = 31 then 0 else s.frameByte (4 * w + 3)) ++ s.frameByte (4 * w + 2) ++
        s.frameByte (4 * w + 1) ++ s.frameByte (4 * w))) ∧
    (∀ a, a % 4 = 0 →
      ((0x014 ≤ a ∧ a ≤ 0x01C) ∨ (0x030 ≤ a ∧ a ≤ 0x03C) ∨ (0x050 ≤ a ∧ a ≤ 0x0FC) ∨
        (0x180 ≤ a ∧ a ≤ 0xFFC)) → reads a 0)

/-- R35, R36: the bits of STATUS as read. -/
def Obligations.StatusBitsAsRead : Prop :=
  ∀ s : State,
    s.statusWord.getLsbD 0 = decide (s.phase = .busy) ∧ s.statusWord.getLsbD 1 = s.done ∧
    s.statusWord.getLsbD 2 = s.valid ∧ s.statusWord.getLsbD 3 = s.cfgLocked ∧
    s.statusWord.extractLsb' 4 4 = s.result.code ∧ s.statusWord.getLsbD 8 = s.errCmd ∧
    s.statusWord.getLsbD 9 = s.errBusy ∧ s.statusWord.getLsbD 10 = s.errLocked ∧
    s.statusWord.extractLsb' 11 21 = 0

/-- R34, R35, R77: the writes no gate guards take effect in every phase: CTRL writes IRQ_EN, STATUS clears each
W1C bit whose written bit is 1 and nothing else, and the read-only registers ignore a write. -/
def Obligations.UnguardedWrites : Prop :=
  ∀ (s : State) (rest : List Input) (v : Word),
    let writes := fun (a : Nat) (t : State) => s.inputs = .hostWrite a 4 v :: rest → step s = .next t
    writes 0x000 { s with inputs := rest, answer := .writeDone, irqEn := v.getLsbD 0 } ∧
    writes 0x004 { s with
      inputs := rest, answer := .writeDone
      done := if v.getLsbD 1 then false else s.done
      errCmd := if v.getLsbD 8 then false else s.errCmd
      errBusy := if v.getLsbD 9 then false else s.errBusy
      errLocked := if v.getLsbD 10 then false else s.errLocked } ∧
    writes 0x040 { s with inputs := rest, answer := .writeDone } ∧
    writes 0x044 { s with inputs := rest, answer := .writeDone } ∧
    writes 0x048 { s with inputs := rest, answer := .writeDone } ∧
    writes 0x04C { s with inputs := rest, answer := .writeDone }

/-- R77: a write of LENGTH, IDENTITY or a KEY word in IDLE and unlocked writes that register and no other. -/
def Obligations.ConfigurationAndLengthWrites : Prop :=
  ∀ (s : State) (rest : List Input) (v : Word), s.phase = .idle →
    let writes := fun (a : Nat) (t : State) => s.inputs = .hostWrite a 4 v :: rest → step s = .next t
    writes 0x00C { s with inputs := rest, answer := .writeDone, length := v.extractLsb' 0 8 } ∧
    (s.cfgLocked = false →
      writes 0x010 { s with inputs := rest, answer := .writeDone, identity := v } ∧
      writes 0x020 { s with inputs := rest, answer := .writeDone, key0 := v } ∧
      writes 0x024 { s with inputs := rest, answer := .writeDone, key1 := v } ∧
      writes 0x028 { s with inputs := rest, answer := .writeDone, key2 := v } ∧
      writes 0x02C { s with inputs := rest, answer := .writeDone, key3 := v })

/-- R52, R53, R77: a FRAME write in IDLE writes its bytes of the frame buffer, byte 127 excepted, and every
other byte and register is as before; reading the word back gives what was written, byte 127 as 0. -/
def Obligations.FrameWordWriteAndReadBack : Prop :=
  ∀ (s : State) (rest : List Input) (w : Nat) (v : Word), w < 32 → s.phase = .idle →
    s.inputs = .hostWrite (0x100 + 4 * w) 4 v :: rest →
    ∃ t, step s = .next t ∧ t = { s with inputs := rest, answer := .writeDone, frame := t.frame } ∧
      (∀ i, i < 127 →
        t.frameByte i =
          if i = 4 * w then v.extractLsb' 0 8
          else if i = 4 * w + 1 then v.extractLsb' 8 8
          else if i = 4 * w + 2 then v.extractLsb' 16 8
          else if i = 4 * w + 3 then v.extractLsb' 24 8
          else s.frameByte i) ∧
      t.readReg (.frame (Fin.ofNat 32 w)) = if w = 31 then v &&& 0x00FFFFFF else v

/-- R78: in BUSY a write to a guarded register only sets ERR_BUSY, and no other write sets it. That the port
answers the dropped write as taken is the model's choice (log entry 4). -/
def Obligations.BusyGateDropsTheWrite : Prop :=
  ∀ (s : State) (rest : List Input) (a : Nat) (v : Word),
    s.inputs = .hostWrite a 4 v :: rest → a % 4 = 0 → a ≤ 0xFFC →
    ((a = 0x008 ∨ a = 0x00C ∨ a = 0x010 ∨ (0x020 ≤ a ∧ a ≤ 0x02C) ∨ (0x100 ≤ a ∧ a ≤ 0x17C)) →
      s.phase = .busy →
        step s = .next { s with inputs := rest, answer := .writeDone, errBusy := true }) ∧
    (¬(a = 0x008 ∨ a = 0x00C ∨ a = 0x010 ∨ (0x020 ≤ a ∧ a ≤ 0x02C) ∨ (0x100 ≤ a ∧ a ≤ 0x17C)) →
      ∃ t, step s = .next t ∧ (t.errBusy = true → s.errBusy = true)) ∧
    (s.phase = .idle → ∃ t, step s = .next t ∧ (t.errBusy = true → s.errBusy = true))

/-- R79: in IDLE and locked, a write to IDENTITY or a KEY word only sets ERR_LOCKED. That the port answers the
dropped write as taken is the model's choice (log entry 4). -/
def Obligations.LockGateDropsTheWrite : Prop :=
  ∀ (s : State) (rest : List Input) (a : Nat) (v : Word),
    s.inputs = .hostWrite a 4 v :: rest → a % 4 = 0 → (a = 0x010 ∨ (0x020 ≤ a ∧ a ≤ 0x02C)) →
    s.phase = .idle → s.cfgLocked = true →
      step s = .next { s with inputs := rest, answer := .writeDone, errLocked := true }

/-- R75: a word access at a reserved offset reads 0 and ignores a write, in every phase, with no error bit. -/
def Obligations.ReservedOffsetsReadZeroIgnoreWrites : Prop :=
  ∀ (s : State) (rest : List Input) (a : Nat) (v : Word), a % 4 = 0 →
    ((0x014 ≤ a ∧ a ≤ 0x01C) ∨ (0x030 ≤ a ∧ a ≤ 0x03C) ∨ (0x050 ≤ a ∧ a ≤ 0x0FC) ∨ (0x180 ≤ a ∧ a ≤ 0xFFC)) →
    (s.inputs = .hostRead a 4 :: rest →
      step s = .next { s with inputs := rest, answer := .readData 0 }) ∧
    (s.inputs = .hostWrite a 4 v :: rest →
      step s = .next { s with inputs := rest, answer := .writeDone })

/-- R73, with the record in `faults` (log entry 6): an access of another size, misaligned or past the register space is answered with a bus error,
changes no state of the block, returns 0, and is recorded; no step ever removes a recorded fault. -/
def Obligations.BusErrorIsRecordedAndNeverCleared : Prop :=
  (∀ (s : State) (rest : List Input) (a n : Nat) (v : Word), (n ≠ 4 ∨ a % 4 ≠ 0 ∨ a > 0xFFC) →
    (s.inputs = .hostRead a n :: rest →
      step s = .next { s with
        inputs := rest, answer := .readBusError 0, faults := s.faults ++ [.busError a n] }) ∧
    (s.inputs = .hostWrite a n v :: rest →
      step s = .next { s with
        inputs := rest, answer := .writeBusError, faults := s.faults ++ [.busError a n] })) ∧
  (∀ s t : State, step s = .next t → ∃ more, t.faults = s.faults ++ more) ∧
  (∀ (s t : State) (rest : List Input) (a : Nat) (v : Word), a % 4 = 0 → a ≤ 0xFFC →
    (s.inputs = .hostRead a 4 :: rest ∨ s.inputs = .hostWrite a 4 v :: rest) → step s = .next t →
      t.faults = s.faults)

/-- R55, R293, R294: `irq` is IRQ_EN and DONE, and each acknowledgement drops it: the W1C write of DONE in any
phase, ARM and the next DECODE in IDLE. -/
def Obligations.AcknowledgementDropsTheInterrupt : Prop :=
  ∀ s : State,
    (s.irq = true ↔ s.irqEn = true ∧ s.done = true) ∧
    (∀ v : Word, v.getLsbD 1 = true → (s.writeStatus v).irq = false) ∧
    (s.phase = .idle → ∀ t, exec .arm s = .next t ∨ exec .decode s = .next t → t.irq = false)

/-- R72: on a platform with any base, the bus address `base + a` selects offset `a`. That an access outside the
4 KiB is no transaction of the block is the model's choice (log entry 11). -/
def Obligations.BusAddressSelectsTheOffset : Prop :=
  (∀ base a n v, a < 0x1000 →
    busInputAt base (.read (base + a) n) = some (.hostRead a n) ∧
    busInputAt base (.write (base + a) n v) = some (.hostWrite a n v)) ∧
  (∀ base addr n v, addr < base ∨ base + 0x1000 ≤ addr →
    busInputAt base (.read addr n) = none ∧ busInputAt base (.write addr n v) = none)

/-- R47, R300: no read of any size at any offset depends on the key. -/
def Obligations.NoReadDependsOnTheKey : Prop :=
  ∀ (s : State) (k0 k1 k2 k3 : Word) (a n : Nat),
    (hostRead a n { s with key0 := k0, key1 := k1, key2 := k2, key3 := k3 }).answer = (hostRead a n s).answer

/-! ## Host scripts -/

/-- R47, R107: in IDLE and unlocked, the four writes of `ldkey` leave key byte `j` equal to the statement's, in
every schedule (log entry 12). -/
def Obligations.LdkeyLoadsTheKeyBytes : Prop :=
  ∀ (s : State) (key : List Byte) (movers : List Mover), s.phase = .idle → s.cfgLocked = false →
    Stmt.wellFormed (.ldkey key) = true →
      ∃ t, (s.withScript [.ldkey key] movers).run (s.withScript [.ldkey key] movers).inputs.length = .next t ∧
        t.inputs = [] ∧ ∀ j, j < 16 → Block.byte t.key j = byteAt key j

/-- R45, R52, R107: in IDLE, the writes of `ldframe` of any number `n` of bytes leave LENGTH the low byte of `n` and
frame byte `i` equal to the statement's, in every schedule (log entry 12). R107 leaves the greatest `n` open: that
more than the buffer's 127 bytes are expanded alike is the model's choice (log entry 17). -/
def Obligations.LdframeLoadsTheTelegram : Prop :=
  ∀ (s : State) (bytes : List Byte) (movers : List Mover), s.phase = .idle →
    ∃ t, (s.withScript [.ldframe bytes] movers).run (s.withScript [.ldframe bytes] movers).inputs.length = .next t ∧
      t.inputs = [] ∧ t.length.toNat = bytes.length % 256 ∧ t.phase = .idle ∧
      ∀ i, i < 127 → t.frameByte i = if i < 4 * ((bytes.length + 3) / 4) then byteAt bytes i else s.frameByte i
end

