-- ==== Sys2Proof/Laws/State.lean ====
section
/-! SUPPORT. What each named update of the state leaves in each field: one lemma per field per update, so that
no later proof unfolds a record update. -/

namespace Sys2Proof.Machine

/-! ### State.clearFrame -/

@[simp] theorem State.clearFrame_phase (s : State) : (s.clearFrame).phase = s.phase := rfl
@[simp] theorem State.clearFrame_irqEn (s : State) : (s.clearFrame).irqEn = s.irqEn := rfl
@[simp] theorem State.clearFrame_done (s : State) : (s.clearFrame).done = s.done := rfl
@[simp] theorem State.clearFrame_valid (s : State) : (s.clearFrame).valid = s.valid := rfl
@[simp] theorem State.clearFrame_cfgLocked (s : State) : (s.clearFrame).cfgLocked = s.cfgLocked := rfl
@[simp] theorem State.clearFrame_result (s : State) : (s.clearFrame).result = s.result := rfl
@[simp] theorem State.clearFrame_errCmd (s : State) : (s.clearFrame).errCmd = s.errCmd := rfl
@[simp] theorem State.clearFrame_errBusy (s : State) : (s.clearFrame).errBusy = s.errBusy := rfl
@[simp] theorem State.clearFrame_errLocked (s : State) : (s.clearFrame).errLocked = s.errLocked := rfl
@[simp] theorem State.clearFrame_length (s : State) : (s.clearFrame).length = s.length := rfl
@[simp] theorem State.clearFrame_identity (s : State) : (s.clearFrame).identity = s.identity := rfl
@[simp] theorem State.clearFrame_key0 (s : State) : (s.clearFrame).key0 = s.key0 := rfl
@[simp] theorem State.clearFrame_key1 (s : State) : (s.clearFrame).key1 = s.key1 := rfl
@[simp] theorem State.clearFrame_key2 (s : State) : (s.clearFrame).key2 = s.key2 := rfl
@[simp] theorem State.clearFrame_key3 (s : State) : (s.clearFrame).key3 = s.key3 := rfl
@[simp] theorem State.clearFrame_volume (s : State) : (s.clearFrame).volume = s.volume := rfl
@[simp] theorem State.clearFrame_target (s : State) : (s.clearFrame).target = s.target := rfl
@[simp] theorem State.clearFrame_info (s : State) : (s.clearFrame).info = s.info := rfl
@[simp] theorem State.clearFrame_temp (s : State) : (s.clearFrame).temp = s.temp := rfl
@[simp] theorem State.clearFrame_frame (s : State) : (s.clearFrame).frame = zeroFrame := rfl
@[simp] theorem State.clearFrame_scratch (s : State) : (s.clearFrame).scratch = s.scratch := rfl
@[simp] theorem State.clearFrame_faults (s : State) : (s.clearFrame).faults = s.faults := rfl
@[simp] theorem State.clearFrame_inputs (s : State) : (s.clearFrame).inputs = s.inputs := rfl
@[simp] theorem State.clearFrame_answer (s : State) : (s.clearFrame).answer = s.answer := rfl
@[simp] theorem State.clearFrame_draws (s : State) : (s.clearFrame).draws = s.draws := rfl
@[simp] theorem State.clearFrame_frameDraw (s : State) : (s.clearFrame).frameDraw = s.frameDraw := rfl

/-! ### State.clearScratch -/

@[simp] theorem State.clearScratch_phase (s : State) : (s.clearScratch).phase = s.phase := rfl
@[simp] theorem State.clearScratch_irqEn (s : State) : (s.clearScratch).irqEn = s.irqEn := rfl
@[simp] theorem State.clearScratch_done (s : State) : (s.clearScratch).done = s.done := rfl
@[simp] theorem State.clearScratch_valid (s : State) : (s.clearScratch).valid = s.valid := rfl
@[simp] theorem State.clearScratch_cfgLocked (s : State) : (s.clearScratch).cfgLocked = s.cfgLocked := rfl
@[simp] theorem State.clearScratch_result (s : State) : (s.clearScratch).result = s.result := rfl
@[simp] theorem State.clearScratch_errCmd (s : State) : (s.clearScratch).errCmd = s.errCmd := rfl
@[simp] theorem State.clearScratch_errBusy (s : State) : (s.clearScratch).errBusy = s.errBusy := rfl
@[simp] theorem State.clearScratch_errLocked (s : State) : (s.clearScratch).errLocked = s.errLocked := rfl
@[simp] theorem State.clearScratch_length (s : State) : (s.clearScratch).length = s.length := rfl
@[simp] theorem State.clearScratch_identity (s : State) : (s.clearScratch).identity = s.identity := rfl
@[simp] theorem State.clearScratch_key0 (s : State) : (s.clearScratch).key0 = s.key0 := rfl
@[simp] theorem State.clearScratch_key1 (s : State) : (s.clearScratch).key1 = s.key1 := rfl
@[simp] theorem State.clearScratch_key2 (s : State) : (s.clearScratch).key2 = s.key2 := rfl
@[simp] theorem State.clearScratch_key3 (s : State) : (s.clearScratch).key3 = s.key3 := rfl
@[simp] theorem State.clearScratch_volume (s : State) : (s.clearScratch).volume = s.volume := rfl
@[simp] theorem State.clearScratch_target (s : State) : (s.clearScratch).target = s.target := rfl
@[simp] theorem State.clearScratch_info (s : State) : (s.clearScratch).info = s.info := rfl
@[simp] theorem State.clearScratch_temp (s : State) : (s.clearScratch).temp = s.temp := rfl
@[simp] theorem State.clearScratch_frame (s : State) : (s.clearScratch).frame = s.frame := rfl
@[simp] theorem State.clearScratch_scratch (s : State) : (s.clearScratch).scratch = zeroScratch := rfl
@[simp] theorem State.clearScratch_faults (s : State) : (s.clearScratch).faults = s.faults := rfl
@[simp] theorem State.clearScratch_inputs (s : State) : (s.clearScratch).inputs = s.inputs := rfl
@[simp] theorem State.clearScratch_answer (s : State) : (s.clearScratch).answer = s.answer := rfl
@[simp] theorem State.clearScratch_draws (s : State) : (s.clearScratch).draws = s.draws := rfl
@[simp] theorem State.clearScratch_frameDraw (s : State) : (s.clearScratch).frameDraw = s.frameDraw := rfl

/-! ### State.scrambleScratch -/

@[simp] theorem State.scrambleScratch_phase (s : State) : (s.scrambleScratch).phase = s.phase := rfl
@[simp] theorem State.scrambleScratch_irqEn (s : State) : (s.scrambleScratch).irqEn = s.irqEn := rfl
@[simp] theorem State.scrambleScratch_done (s : State) : (s.scrambleScratch).done = s.done := rfl
@[simp] theorem State.scrambleScratch_valid (s : State) : (s.scrambleScratch).valid = s.valid := rfl
@[simp] theorem State.scrambleScratch_cfgLocked (s : State) : (s.scrambleScratch).cfgLocked = s.cfgLocked := rfl
@[simp] theorem State.scrambleScratch_result (s : State) : (s.scrambleScratch).result = s.result := rfl
@[simp] theorem State.scrambleScratch_errCmd (s : State) : (s.scrambleScratch).errCmd = s.errCmd := rfl
@[simp] theorem State.scrambleScratch_errBusy (s : State) : (s.scrambleScratch).errBusy = s.errBusy := rfl
@[simp] theorem State.scrambleScratch_errLocked (s : State) : (s.scrambleScratch).errLocked = s.errLocked := rfl
@[simp] theorem State.scrambleScratch_length (s : State) : (s.scrambleScratch).length = s.length := rfl
@[simp] theorem State.scrambleScratch_identity (s : State) : (s.scrambleScratch).identity = s.identity := rfl
@[simp] theorem State.scrambleScratch_key0 (s : State) : (s.scrambleScratch).key0 = s.key0 := rfl
@[simp] theorem State.scrambleScratch_key1 (s : State) : (s.scrambleScratch).key1 = s.key1 := rfl
@[simp] theorem State.scrambleScratch_key2 (s : State) : (s.scrambleScratch).key2 = s.key2 := rfl
@[simp] theorem State.scrambleScratch_key3 (s : State) : (s.scrambleScratch).key3 = s.key3 := rfl
@[simp] theorem State.scrambleScratch_volume (s : State) : (s.scrambleScratch).volume = s.volume := rfl
@[simp] theorem State.scrambleScratch_target (s : State) : (s.scrambleScratch).target = s.target := rfl
@[simp] theorem State.scrambleScratch_info (s : State) : (s.scrambleScratch).info = s.info := rfl
@[simp] theorem State.scrambleScratch_temp (s : State) : (s.scrambleScratch).temp = s.temp := rfl
@[simp] theorem State.scrambleScratch_frame (s : State) : (s.scrambleScratch).frame = s.frame := rfl
@[simp] theorem State.scrambleScratch_scratch (s : State) : (s.scrambleScratch).scratch = Config.freeScratch s.draws := rfl
@[simp] theorem State.scrambleScratch_faults (s : State) : (s.scrambleScratch).faults = s.faults := rfl
@[simp] theorem State.scrambleScratch_inputs (s : State) : (s.scrambleScratch).inputs = s.inputs := rfl
@[simp] theorem State.scrambleScratch_answer (s : State) : (s.scrambleScratch).answer = s.answer := rfl
@[simp] theorem State.scrambleScratch_draws (s : State) : (s.scrambleScratch).draws = s.draws + 1 := rfl
@[simp] theorem State.scrambleScratch_frameDraw (s : State) : (s.scrambleScratch).frameDraw = s.frameDraw := rfl

/-! ### State.clearResults -/

@[simp] theorem State.clearResults_phase (s : State) : (s.clearResults).phase = s.phase := rfl
@[simp] theorem State.clearResults_irqEn (s : State) : (s.clearResults).irqEn = s.irqEn := rfl
@[simp] theorem State.clearResults_done (s : State) : (s.clearResults).done = false := rfl
@[simp] theorem State.clearResults_valid (s : State) : (s.clearResults).valid = false := rfl
@[simp] theorem State.clearResults_cfgLocked (s : State) : (s.clearResults).cfgLocked = s.cfgLocked := rfl
@[simp] theorem State.clearResults_result (s : State) : (s.clearResults).result = .none := rfl
@[simp] theorem State.clearResults_errCmd (s : State) : (s.clearResults).errCmd = s.errCmd := rfl
@[simp] theorem State.clearResults_errBusy (s : State) : (s.clearResults).errBusy = s.errBusy := rfl
@[simp] theorem State.clearResults_errLocked (s : State) : (s.clearResults).errLocked = s.errLocked := rfl
@[simp] theorem State.clearResults_length (s : State) : (s.clearResults).length = s.length := rfl
@[simp] theorem State.clearResults_identity (s : State) : (s.clearResults).identity = s.identity := rfl
@[simp] theorem State.clearResults_key0 (s : State) : (s.clearResults).key0 = s.key0 := rfl
@[simp] theorem State.clearResults_key1 (s : State) : (s.clearResults).key1 = s.key1 := rfl
@[simp] theorem State.clearResults_key2 (s : State) : (s.clearResults).key2 = s.key2 := rfl
@[simp] theorem State.clearResults_key3 (s : State) : (s.clearResults).key3 = s.key3 := rfl
@[simp] theorem State.clearResults_volume (s : State) : (s.clearResults).volume = 0 := rfl
@[simp] theorem State.clearResults_target (s : State) : (s.clearResults).target = 0 := rfl
@[simp] theorem State.clearResults_info (s : State) : (s.clearResults).info = 0 := rfl
@[simp] theorem State.clearResults_temp (s : State) : (s.clearResults).temp = 0 := rfl
@[simp] theorem State.clearResults_frame (s : State) : (s.clearResults).frame = s.frame := rfl
@[simp] theorem State.clearResults_scratch (s : State) : (s.clearResults).scratch = s.scratch := rfl
@[simp] theorem State.clearResults_faults (s : State) : (s.clearResults).faults = s.faults := rfl
@[simp] theorem State.clearResults_inputs (s : State) : (s.clearResults).inputs = s.inputs := rfl
@[simp] theorem State.clearResults_answer (s : State) : (s.clearResults).answer = s.answer := rfl
@[simp] theorem State.clearResults_draws (s : State) : (s.clearResults).draws = s.draws := rfl
@[simp] theorem State.clearResults_frameDraw (s : State) : (s.clearResults).frameDraw = s.frameDraw := rfl

/-! ### State.post -/

@[simp] theorem State.post_phase (s : State) (code : ResultCode) (rd : Reading) : (s.post code rd).phase = .idle := rfl
@[simp] theorem State.post_irqEn (s : State) (code : ResultCode) (rd : Reading) : (s.post code rd).irqEn = s.irqEn := rfl
@[simp] theorem State.post_done (s : State) (code : ResultCode) (rd : Reading) : (s.post code rd).done = true := rfl
@[simp] theorem State.post_valid (s : State) (code : ResultCode) (rd : Reading) : (s.post code rd).valid = decide (code = .ok) := rfl
@[simp] theorem State.post_cfgLocked (s : State) (code : ResultCode) (rd : Reading) : (s.post code rd).cfgLocked = s.cfgLocked := rfl
@[simp] theorem State.post_result (s : State) (code : ResultCode) (rd : Reading) : (s.post code rd).result = code := rfl
@[simp] theorem State.post_errCmd (s : State) (code : ResultCode) (rd : Reading) : (s.post code rd).errCmd = s.errCmd := rfl
@[simp] theorem State.post_errBusy (s : State) (code : ResultCode) (rd : Reading) : (s.post code rd).errBusy = s.errBusy := rfl
@[simp] theorem State.post_errLocked (s : State) (code : ResultCode) (rd : Reading) : (s.post code rd).errLocked = s.errLocked := rfl
@[simp] theorem State.post_length (s : State) (code : ResultCode) (rd : Reading) : (s.post code rd).length = s.length := rfl
@[simp] theorem State.post_identity (s : State) (code : ResultCode) (rd : Reading) : (s.post code rd).identity = s.identity := rfl
@[simp] theorem State.post_key0 (s : State) (code : ResultCode) (rd : Reading) : (s.post code rd).key0 = s.key0 := rfl
@[simp] theorem State.post_key1 (s : State) (code : ResultCode) (rd : Reading) : (s.post code rd).key1 = s.key1 := rfl
@[simp] theorem State.post_key2 (s : State) (code : ResultCode) (rd : Reading) : (s.post code rd).key2 = s.key2 := rfl
@[simp] theorem State.post_key3 (s : State) (code : ResultCode) (rd : Reading) : (s.post code rd).key3 = s.key3 := rfl
@[simp] theorem State.post_volume (s : State) (code : ResultCode) (rd : Reading) : (s.post code rd).volume = rd.volume := rfl
@[simp] theorem State.post_target (s : State) (code : ResultCode) (rd : Reading) : (s.post code rd).target = rd.target := rfl
@[simp] theorem State.post_info (s : State) (code : ResultCode) (rd : Reading) : (s.post code rd).info = rd.infoCode := rfl
@[simp] theorem State.post_temp (s : State) (code : ResultCode) (rd : Reading) : (s.post code rd).temp = rd.ambientTemperature.setWidth 16 <<< 8 ||| rd.flowTemperature.setWidth 16 := rfl
@[simp] theorem State.post_frame (s : State) (code : ResultCode) (rd : Reading) : (s.post code rd).frame = s.frame := rfl
@[simp] theorem State.post_scratch (s : State) (code : ResultCode) (rd : Reading) : (s.post code rd).scratch = s.scratch := rfl
@[simp] theorem State.post_faults (s : State) (code : ResultCode) (rd : Reading) : (s.post code rd).faults = s.faults := rfl
@[simp] theorem State.post_inputs (s : State) (code : ResultCode) (rd : Reading) : (s.post code rd).inputs = s.inputs := rfl
@[simp] theorem State.post_answer (s : State) (code : ResultCode) (rd : Reading) : (s.post code rd).answer = s.answer := rfl
@[simp] theorem State.post_draws (s : State) (code : ResultCode) (rd : Reading) : (s.post code rd).draws = s.draws := rfl
@[simp] theorem State.post_frameDraw (s : State) (code : ResultCode) (rd : Reading) : (s.post code rd).frameDraw = s.frameDraw := rfl

/-! ### State.acknowledge -/

@[simp] theorem State.acknowledge_phase (s : State) : (s.acknowledge).phase = s.phase := rfl
@[simp] theorem State.acknowledge_irqEn (s : State) : (s.acknowledge).irqEn = s.irqEn := rfl
@[simp] theorem State.acknowledge_done (s : State) : (s.acknowledge).done = false := rfl
@[simp] theorem State.acknowledge_valid (s : State) : (s.acknowledge).valid = s.valid := rfl
@[simp] theorem State.acknowledge_cfgLocked (s : State) : (s.acknowledge).cfgLocked = s.cfgLocked := rfl
@[simp] theorem State.acknowledge_result (s : State) : (s.acknowledge).result = s.result := rfl
@[simp] theorem State.acknowledge_errCmd (s : State) : (s.acknowledge).errCmd = s.errCmd := rfl
@[simp] theorem State.acknowledge_errBusy (s : State) : (s.acknowledge).errBusy = s.errBusy := rfl
@[simp] theorem State.acknowledge_errLocked (s : State) : (s.acknowledge).errLocked = s.errLocked := rfl
@[simp] theorem State.acknowledge_length (s : State) : (s.acknowledge).length = s.length := rfl
@[simp] theorem State.acknowledge_identity (s : State) : (s.acknowledge).identity = s.identity := rfl
@[simp] theorem State.acknowledge_key0 (s : State) : (s.acknowledge).key0 = s.key0 := rfl
@[simp] theorem State.acknowledge_key1 (s : State) : (s.acknowledge).key1 = s.key1 := rfl
@[simp] theorem State.acknowledge_key2 (s : State) : (s.acknowledge).key2 = s.key2 := rfl
@[simp] theorem State.acknowledge_key3 (s : State) : (s.acknowledge).key3 = s.key3 := rfl
@[simp] theorem State.acknowledge_volume (s : State) : (s.acknowledge).volume = s.volume := rfl
@[simp] theorem State.acknowledge_target (s : State) : (s.acknowledge).target = s.target := rfl
@[simp] theorem State.acknowledge_info (s : State) : (s.acknowledge).info = s.info := rfl
@[simp] theorem State.acknowledge_temp (s : State) : (s.acknowledge).temp = s.temp := rfl
@[simp] theorem State.acknowledge_frame (s : State) : (s.acknowledge).frame = s.frame := rfl
@[simp] theorem State.acknowledge_scratch (s : State) : (s.acknowledge).scratch = s.scratch := rfl
@[simp] theorem State.acknowledge_faults (s : State) : (s.acknowledge).faults = s.faults := rfl
@[simp] theorem State.acknowledge_inputs (s : State) : (s.acknowledge).inputs = s.inputs := rfl
@[simp] theorem State.acknowledge_answer (s : State) : (s.acknowledge).answer = s.answer := rfl
@[simp] theorem State.acknowledge_draws (s : State) : (s.acknowledge).draws = s.draws := rfl
@[simp] theorem State.acknowledge_frameDraw (s : State) : (s.acknowledge).frameDraw = s.frameDraw := rfl

/-! ### State.raiseErrCmd -/

@[simp] theorem State.raiseErrCmd_phase (s : State) : (s.raiseErrCmd).phase = s.phase := rfl
@[simp] theorem State.raiseErrCmd_irqEn (s : State) : (s.raiseErrCmd).irqEn = s.irqEn := rfl
@[simp] theorem State.raiseErrCmd_done (s : State) : (s.raiseErrCmd).done = s.done := rfl
@[simp] theorem State.raiseErrCmd_valid (s : State) : (s.raiseErrCmd).valid = s.valid := rfl
@[simp] theorem State.raiseErrCmd_cfgLocked (s : State) : (s.raiseErrCmd).cfgLocked = s.cfgLocked := rfl
@[simp] theorem State.raiseErrCmd_result (s : State) : (s.raiseErrCmd).result = s.result := rfl
@[simp] theorem State.raiseErrCmd_errCmd (s : State) : (s.raiseErrCmd).errCmd = true := rfl
@[simp] theorem State.raiseErrCmd_errBusy (s : State) : (s.raiseErrCmd).errBusy = s.errBusy := rfl
@[simp] theorem State.raiseErrCmd_errLocked (s : State) : (s.raiseErrCmd).errLocked = s.errLocked := rfl
@[simp] theorem State.raiseErrCmd_length (s : State) : (s.raiseErrCmd).length = s.length := rfl
@[simp] theorem State.raiseErrCmd_identity (s : State) : (s.raiseErrCmd).identity = s.identity := rfl
@[simp] theorem State.raiseErrCmd_key0 (s : State) : (s.raiseErrCmd).key0 = s.key0 := rfl
@[simp] theorem State.raiseErrCmd_key1 (s : State) : (s.raiseErrCmd).key1 = s.key1 := rfl
@[simp] theorem State.raiseErrCmd_key2 (s : State) : (s.raiseErrCmd).key2 = s.key2 := rfl
@[simp] theorem State.raiseErrCmd_key3 (s : State) : (s.raiseErrCmd).key3 = s.key3 := rfl
@[simp] theorem State.raiseErrCmd_volume (s : State) : (s.raiseErrCmd).volume = s.volume := rfl
@[simp] theorem State.raiseErrCmd_target (s : State) : (s.raiseErrCmd).target = s.target := rfl
@[simp] theorem State.raiseErrCmd_info (s : State) : (s.raiseErrCmd).info = s.info := rfl
@[simp] theorem State.raiseErrCmd_temp (s : State) : (s.raiseErrCmd).temp = s.temp := rfl
@[simp] theorem State.raiseErrCmd_frame (s : State) : (s.raiseErrCmd).frame = s.frame := rfl
@[simp] theorem State.raiseErrCmd_scratch (s : State) : (s.raiseErrCmd).scratch = s.scratch := rfl
@[simp] theorem State.raiseErrCmd_faults (s : State) : (s.raiseErrCmd).faults = s.faults := rfl
@[simp] theorem State.raiseErrCmd_inputs (s : State) : (s.raiseErrCmd).inputs = s.inputs := rfl
@[simp] theorem State.raiseErrCmd_answer (s : State) : (s.raiseErrCmd).answer = s.answer := rfl
@[simp] theorem State.raiseErrCmd_draws (s : State) : (s.raiseErrCmd).draws = s.draws := rfl
@[simp] theorem State.raiseErrCmd_frameDraw (s : State) : (s.raiseErrCmd).frameDraw = s.frameDraw := rfl

/-! ### State.raiseErrBusy -/

@[simp] theorem State.raiseErrBusy_phase (s : State) : (s.raiseErrBusy).phase = s.phase := rfl
@[simp] theorem State.raiseErrBusy_irqEn (s : State) : (s.raiseErrBusy).irqEn = s.irqEn := rfl
@[simp] theorem State.raiseErrBusy_done (s : State) : (s.raiseErrBusy).done = s.done := rfl
@[simp] theorem State.raiseErrBusy_valid (s : State) : (s.raiseErrBusy).valid = s.valid := rfl
@[simp] theorem State.raiseErrBusy_cfgLocked (s : State) : (s.raiseErrBusy).cfgLocked = s.cfgLocked := rfl
@[simp] theorem State.raiseErrBusy_result (s : State) : (s.raiseErrBusy).result = s.result := rfl
@[simp] theorem State.raiseErrBusy_errCmd (s : State) : (s.raiseErrBusy).errCmd = s.errCmd := rfl
@[simp] theorem State.raiseErrBusy_errBusy (s : State) : (s.raiseErrBusy).errBusy = true := rfl
@[simp] theorem State.raiseErrBusy_errLocked (s : State) : (s.raiseErrBusy).errLocked = s.errLocked := rfl
@[simp] theorem State.raiseErrBusy_length (s : State) : (s.raiseErrBusy).length = s.length := rfl
@[simp] theorem State.raiseErrBusy_identity (s : State) : (s.raiseErrBusy).identity = s.identity := rfl
@[simp] theorem State.raiseErrBusy_key0 (s : State) : (s.raiseErrBusy).key0 = s.key0 := rfl
@[simp] theorem State.raiseErrBusy_key1 (s : State) : (s.raiseErrBusy).key1 = s.key1 := rfl
@[simp] theorem State.raiseErrBusy_key2 (s : State) : (s.raiseErrBusy).key2 = s.key2 := rfl
@[simp] theorem State.raiseErrBusy_key3 (s : State) : (s.raiseErrBusy).key3 = s.key3 := rfl
@[simp] theorem State.raiseErrBusy_volume (s : State) : (s.raiseErrBusy).volume = s.volume := rfl
@[simp] theorem State.raiseErrBusy_target (s : State) : (s.raiseErrBusy).target = s.target := rfl
@[simp] theorem State.raiseErrBusy_info (s : State) : (s.raiseErrBusy).info = s.info := rfl
@[simp] theorem State.raiseErrBusy_temp (s : State) : (s.raiseErrBusy).temp = s.temp := rfl
@[simp] theorem State.raiseErrBusy_frame (s : State) : (s.raiseErrBusy).frame = s.frame := rfl
@[simp] theorem State.raiseErrBusy_scratch (s : State) : (s.raiseErrBusy).scratch = s.scratch := rfl
@[simp] theorem State.raiseErrBusy_faults (s : State) : (s.raiseErrBusy).faults = s.faults := rfl
@[simp] theorem State.raiseErrBusy_inputs (s : State) : (s.raiseErrBusy).inputs = s.inputs := rfl
@[simp] theorem State.raiseErrBusy_answer (s : State) : (s.raiseErrBusy).answer = s.answer := rfl
@[simp] theorem State.raiseErrBusy_draws (s : State) : (s.raiseErrBusy).draws = s.draws := rfl
@[simp] theorem State.raiseErrBusy_frameDraw (s : State) : (s.raiseErrBusy).frameDraw = s.frameDraw := rfl

/-! ### State.raiseErrLocked -/

@[simp] theorem State.raiseErrLocked_phase (s : State) : (s.raiseErrLocked).phase = s.phase := rfl
@[simp] theorem State.raiseErrLocked_irqEn (s : State) : (s.raiseErrLocked).irqEn = s.irqEn := rfl
@[simp] theorem State.raiseErrLocked_done (s : State) : (s.raiseErrLocked).done = s.done := rfl
@[simp] theorem State.raiseErrLocked_valid (s : State) : (s.raiseErrLocked).valid = s.valid := rfl
@[simp] theorem State.raiseErrLocked_cfgLocked (s : State) : (s.raiseErrLocked).cfgLocked = s.cfgLocked := rfl
@[simp] theorem State.raiseErrLocked_result (s : State) : (s.raiseErrLocked).result = s.result := rfl
@[simp] theorem State.raiseErrLocked_errCmd (s : State) : (s.raiseErrLocked).errCmd = s.errCmd := rfl
@[simp] theorem State.raiseErrLocked_errBusy (s : State) : (s.raiseErrLocked).errBusy = s.errBusy := rfl
@[simp] theorem State.raiseErrLocked_errLocked (s : State) : (s.raiseErrLocked).errLocked = true := rfl
@[simp] theorem State.raiseErrLocked_length (s : State) : (s.raiseErrLocked).length = s.length := rfl
@[simp] theorem State.raiseErrLocked_identity (s : State) : (s.raiseErrLocked).identity = s.identity := rfl
@[simp] theorem State.raiseErrLocked_key0 (s : State) : (s.raiseErrLocked).key0 = s.key0 := rfl
@[simp] theorem State.raiseErrLocked_key1 (s : State) : (s.raiseErrLocked).key1 = s.key1 := rfl
@[simp] theorem State.raiseErrLocked_key2 (s : State) : (s.raiseErrLocked).key2 = s.key2 := rfl
@[simp] theorem State.raiseErrLocked_key3 (s : State) : (s.raiseErrLocked).key3 = s.key3 := rfl
@[simp] theorem State.raiseErrLocked_volume (s : State) : (s.raiseErrLocked).volume = s.volume := rfl
@[simp] theorem State.raiseErrLocked_target (s : State) : (s.raiseErrLocked).target = s.target := rfl
@[simp] theorem State.raiseErrLocked_info (s : State) : (s.raiseErrLocked).info = s.info := rfl
@[simp] theorem State.raiseErrLocked_temp (s : State) : (s.raiseErrLocked).temp = s.temp := rfl
@[simp] theorem State.raiseErrLocked_frame (s : State) : (s.raiseErrLocked).frame = s.frame := rfl
@[simp] theorem State.raiseErrLocked_scratch (s : State) : (s.raiseErrLocked).scratch = s.scratch := rfl
@[simp] theorem State.raiseErrLocked_faults (s : State) : (s.raiseErrLocked).faults = s.faults := rfl
@[simp] theorem State.raiseErrLocked_inputs (s : State) : (s.raiseErrLocked).inputs = s.inputs := rfl
@[simp] theorem State.raiseErrLocked_answer (s : State) : (s.raiseErrLocked).answer = s.answer := rfl
@[simp] theorem State.raiseErrLocked_draws (s : State) : (s.raiseErrLocked).draws = s.draws := rfl
@[simp] theorem State.raiseErrLocked_frameDraw (s : State) : (s.raiseErrLocked).frameDraw = s.frameDraw := rfl

/-! ### State.setLength -/

@[simp] theorem State.setLength_phase (s : State) (v : Word) : (s.setLength v).phase = s.phase := rfl
@[simp] theorem State.setLength_irqEn (s : State) (v : Word) : (s.setLength v).irqEn = s.irqEn := rfl
@[simp] theorem State.setLength_done (s : State) (v : Word) : (s.setLength v).done = s.done := rfl
@[simp] theorem State.setLength_valid (s : State) (v : Word) : (s.setLength v).valid = s.valid := rfl
@[simp] theorem State.setLength_cfgLocked (s : State) (v : Word) : (s.setLength v).cfgLocked = s.cfgLocked := rfl
@[simp] theorem State.setLength_result (s : State) (v : Word) : (s.setLength v).result = s.result := rfl
@[simp] theorem State.setLength_errCmd (s : State) (v : Word) : (s.setLength v).errCmd = s.errCmd := rfl
@[simp] theorem State.setLength_errBusy (s : State) (v : Word) : (s.setLength v).errBusy = s.errBusy := rfl
@[simp] theorem State.setLength_errLocked (s : State) (v : Word) : (s.setLength v).errLocked = s.errLocked := rfl
@[simp] theorem State.setLength_length (s : State) (v : Word) : (s.setLength v).length = v.extractLsb' 0 8 := rfl
@[simp] theorem State.setLength_identity (s : State) (v : Word) : (s.setLength v).identity = s.identity := rfl
@[simp] theorem State.setLength_key0 (s : State) (v : Word) : (s.setLength v).key0 = s.key0 := rfl
@[simp] theorem State.setLength_key1 (s : State) (v : Word) : (s.setLength v).key1 = s.key1 := rfl
@[simp] theorem State.setLength_key2 (s : State) (v : Word) : (s.setLength v).key2 = s.key2 := rfl
@[simp] theorem State.setLength_key3 (s : State) (v : Word) : (s.setLength v).key3 = s.key3 := rfl
@[simp] theorem State.setLength_volume (s : State) (v : Word) : (s.setLength v).volume = s.volume := rfl
@[simp] theorem State.setLength_target (s : State) (v : Word) : (s.setLength v).target = s.target := rfl
@[simp] theorem State.setLength_info (s : State) (v : Word) : (s.setLength v).info = s.info := rfl
@[simp] theorem State.setLength_temp (s : State) (v : Word) : (s.setLength v).temp = s.temp := rfl
@[simp] theorem State.setLength_frame (s : State) (v : Word) : (s.setLength v).frame = s.frame := rfl
@[simp] theorem State.setLength_scratch (s : State) (v : Word) : (s.setLength v).scratch = s.scratch := rfl
@[simp] theorem State.setLength_faults (s : State) (v : Word) : (s.setLength v).faults = s.faults := rfl
@[simp] theorem State.setLength_inputs (s : State) (v : Word) : (s.setLength v).inputs = s.inputs := rfl
@[simp] theorem State.setLength_answer (s : State) (v : Word) : (s.setLength v).answer = s.answer := rfl
@[simp] theorem State.setLength_draws (s : State) (v : Word) : (s.setLength v).draws = s.draws := rfl
@[simp] theorem State.setLength_frameDraw (s : State) (v : Word) : (s.setLength v).frameDraw = s.frameDraw := rfl

/-! ### State.setIdentity -/

@[simp] theorem State.setIdentity_phase (s : State) (v : Word) : (s.setIdentity v).phase = s.phase := rfl
@[simp] theorem State.setIdentity_irqEn (s : State) (v : Word) : (s.setIdentity v).irqEn = s.irqEn := rfl
@[simp] theorem State.setIdentity_done (s : State) (v : Word) : (s.setIdentity v).done = s.done := rfl
@[simp] theorem State.setIdentity_valid (s : State) (v : Word) : (s.setIdentity v).valid = s.valid := rfl
@[simp] theorem State.setIdentity_cfgLocked (s : State) (v : Word) : (s.setIdentity v).cfgLocked = s.cfgLocked := rfl
@[simp] theorem State.setIdentity_result (s : State) (v : Word) : (s.setIdentity v).result = s.result := rfl
@[simp] theorem State.setIdentity_errCmd (s : State) (v : Word) : (s.setIdentity v).errCmd = s.errCmd := rfl
@[simp] theorem State.setIdentity_errBusy (s : State) (v : Word) : (s.setIdentity v).errBusy = s.errBusy := rfl
@[simp] theorem State.setIdentity_errLocked (s : State) (v : Word) : (s.setIdentity v).errLocked = s.errLocked := rfl
@[simp] theorem State.setIdentity_length (s : State) (v : Word) : (s.setIdentity v).length = s.length := rfl
@[simp] theorem State.setIdentity_identity (s : State) (v : Word) : (s.setIdentity v).identity = v := rfl
@[simp] theorem State.setIdentity_key0 (s : State) (v : Word) : (s.setIdentity v).key0 = s.key0 := rfl
@[simp] theorem State.setIdentity_key1 (s : State) (v : Word) : (s.setIdentity v).key1 = s.key1 := rfl
@[simp] theorem State.setIdentity_key2 (s : State) (v : Word) : (s.setIdentity v).key2 = s.key2 := rfl
@[simp] theorem State.setIdentity_key3 (s : State) (v : Word) : (s.setIdentity v).key3 = s.key3 := rfl
@[simp] theorem State.setIdentity_volume (s : State) (v : Word) : (s.setIdentity v).volume = s.volume := rfl
@[simp] theorem State.setIdentity_target (s : State) (v : Word) : (s.setIdentity v).target = s.target := rfl
@[simp] theorem State.setIdentity_info (s : State) (v : Word) : (s.setIdentity v).info = s.info := rfl
@[simp] theorem State.setIdentity_temp (s : State) (v : Word) : (s.setIdentity v).temp = s.temp := rfl
@[simp] theorem State.setIdentity_frame (s : State) (v : Word) : (s.setIdentity v).frame = s.frame := rfl
@[simp] theorem State.setIdentity_scratch (s : State) (v : Word) : (s.setIdentity v).scratch = s.scratch := rfl
@[simp] theorem State.setIdentity_faults (s : State) (v : Word) : (s.setIdentity v).faults = s.faults := rfl
@[simp] theorem State.setIdentity_inputs (s : State) (v : Word) : (s.setIdentity v).inputs = s.inputs := rfl
@[simp] theorem State.setIdentity_answer (s : State) (v : Word) : (s.setIdentity v).answer = s.answer := rfl
@[simp] theorem State.setIdentity_draws (s : State) (v : Word) : (s.setIdentity v).draws = s.draws := rfl
@[simp] theorem State.setIdentity_frameDraw (s : State) (v : Word) : (s.setIdentity v).frameDraw = s.frameDraw := rfl

/-! ### State.lockConfig -/

@[simp] theorem State.lockConfig_phase (s : State) : (s.lockConfig).phase = s.phase := rfl
@[simp] theorem State.lockConfig_irqEn (s : State) : (s.lockConfig).irqEn = s.irqEn := rfl
@[simp] theorem State.lockConfig_done (s : State) : (s.lockConfig).done = s.done := rfl
@[simp] theorem State.lockConfig_valid (s : State) : (s.lockConfig).valid = s.valid := rfl
@[simp] theorem State.lockConfig_cfgLocked (s : State) : (s.lockConfig).cfgLocked = true := rfl
@[simp] theorem State.lockConfig_result (s : State) : (s.lockConfig).result = s.result := rfl
@[simp] theorem State.lockConfig_errCmd (s : State) : (s.lockConfig).errCmd = s.errCmd := rfl
@[simp] theorem State.lockConfig_errBusy (s : State) : (s.lockConfig).errBusy = s.errBusy := rfl
@[simp] theorem State.lockConfig_errLocked (s : State) : (s.lockConfig).errLocked = s.errLocked := rfl
@[simp] theorem State.lockConfig_length (s : State) : (s.lockConfig).length = s.length := rfl
@[simp] theorem State.lockConfig_identity (s : State) : (s.lockConfig).identity = s.identity := rfl
@[simp] theorem State.lockConfig_key0 (s : State) : (s.lockConfig).key0 = s.key0 := rfl
@[simp] theorem State.lockConfig_key1 (s : State) : (s.lockConfig).key1 = s.key1 := rfl
@[simp] theorem State.lockConfig_key2 (s : State) : (s.lockConfig).key2 = s.key2 := rfl
@[simp] theorem State.lockConfig_key3 (s : State) : (s.lockConfig).key3 = s.key3 := rfl
@[simp] theorem State.lockConfig_volume (s : State) : (s.lockConfig).volume = s.volume := rfl
@[simp] theorem State.lockConfig_target (s : State) : (s.lockConfig).target = s.target := rfl
@[simp] theorem State.lockConfig_info (s : State) : (s.lockConfig).info = s.info := rfl
@[simp] theorem State.lockConfig_temp (s : State) : (s.lockConfig).temp = s.temp := rfl
@[simp] theorem State.lockConfig_frame (s : State) : (s.lockConfig).frame = s.frame := rfl
@[simp] theorem State.lockConfig_scratch (s : State) : (s.lockConfig).scratch = s.scratch := rfl
@[simp] theorem State.lockConfig_faults (s : State) : (s.lockConfig).faults = s.faults := rfl
@[simp] theorem State.lockConfig_inputs (s : State) : (s.lockConfig).inputs = s.inputs := rfl
@[simp] theorem State.lockConfig_answer (s : State) : (s.lockConfig).answer = s.answer := rfl
@[simp] theorem State.lockConfig_draws (s : State) : (s.lockConfig).draws = s.draws := rfl
@[simp] theorem State.lockConfig_frameDraw (s : State) : (s.lockConfig).frameDraw = s.frameDraw := rfl

/-! ### State.becomeBusy -/

@[simp] theorem State.becomeBusy_phase (s : State) : (s.becomeBusy).phase = .busy := rfl
@[simp] theorem State.becomeBusy_irqEn (s : State) : (s.becomeBusy).irqEn = s.irqEn := rfl
@[simp] theorem State.becomeBusy_done (s : State) : (s.becomeBusy).done = s.done := rfl
@[simp] theorem State.becomeBusy_valid (s : State) : (s.becomeBusy).valid = s.valid := rfl
@[simp] theorem State.becomeBusy_cfgLocked (s : State) : (s.becomeBusy).cfgLocked = s.cfgLocked := rfl
@[simp] theorem State.becomeBusy_result (s : State) : (s.becomeBusy).result = s.result := rfl
@[simp] theorem State.becomeBusy_errCmd (s : State) : (s.becomeBusy).errCmd = s.errCmd := rfl
@[simp] theorem State.becomeBusy_errBusy (s : State) : (s.becomeBusy).errBusy = s.errBusy := rfl
@[simp] theorem State.becomeBusy_errLocked (s : State) : (s.becomeBusy).errLocked = s.errLocked := rfl
@[simp] theorem State.becomeBusy_length (s : State) : (s.becomeBusy).length = s.length := rfl
@[simp] theorem State.becomeBusy_identity (s : State) : (s.becomeBusy).identity = s.identity := rfl
@[simp] theorem State.becomeBusy_key0 (s : State) : (s.becomeBusy).key0 = s.key0 := rfl
@[simp] theorem State.becomeBusy_key1 (s : State) : (s.becomeBusy).key1 = s.key1 := rfl
@[simp] theorem State.becomeBusy_key2 (s : State) : (s.becomeBusy).key2 = s.key2 := rfl
@[simp] theorem State.becomeBusy_key3 (s : State) : (s.becomeBusy).key3 = s.key3 := rfl
@[simp] theorem State.becomeBusy_volume (s : State) : (s.becomeBusy).volume = s.volume := rfl
@[simp] theorem State.becomeBusy_target (s : State) : (s.becomeBusy).target = s.target := rfl
@[simp] theorem State.becomeBusy_info (s : State) : (s.becomeBusy).info = s.info := rfl
@[simp] theorem State.becomeBusy_temp (s : State) : (s.becomeBusy).temp = s.temp := rfl
@[simp] theorem State.becomeBusy_frame (s : State) : (s.becomeBusy).frame = s.frame := rfl
@[simp] theorem State.becomeBusy_scratch (s : State) : (s.becomeBusy).scratch = s.scratch := rfl
@[simp] theorem State.becomeBusy_faults (s : State) : (s.becomeBusy).faults = s.faults := rfl
@[simp] theorem State.becomeBusy_inputs (s : State) : (s.becomeBusy).inputs = s.inputs := rfl
@[simp] theorem State.becomeBusy_answer (s : State) : (s.becomeBusy).answer = s.answer := rfl
@[simp] theorem State.becomeBusy_draws (s : State) : (s.becomeBusy).draws = s.draws := rfl
@[simp] theorem State.becomeBusy_frameDraw (s : State) : (s.becomeBusy).frameDraw = s.frameDraw := rfl

/-! ### State.consume -/

@[simp] theorem State.consume_phase (s : State) (rest : List Input) : (s.consume rest).phase = s.phase := rfl
@[simp] theorem State.consume_irqEn (s : State) (rest : List Input) : (s.consume rest).irqEn = s.irqEn := rfl
@[simp] theorem State.consume_done (s : State) (rest : List Input) : (s.consume rest).done = s.done := rfl
@[simp] theorem State.consume_valid (s : State) (rest : List Input) : (s.consume rest).valid = s.valid := rfl
@[simp] theorem State.consume_cfgLocked (s : State) (rest : List Input) : (s.consume rest).cfgLocked = s.cfgLocked := rfl
@[simp] theorem State.consume_result (s : State) (rest : List Input) : (s.consume rest).result = s.result := rfl
@[simp] theorem State.consume_errCmd (s : State) (rest : List Input) : (s.consume rest).errCmd = s.errCmd := rfl
@[simp] theorem State.consume_errBusy (s : State) (rest : List Input) : (s.consume rest).errBusy = s.errBusy := rfl
@[simp] theorem State.consume_errLocked (s : State) (rest : List Input) : (s.consume rest).errLocked = s.errLocked := rfl
@[simp] theorem State.consume_length (s : State) (rest : List Input) : (s.consume rest).length = s.length := rfl
@[simp] theorem State.consume_identity (s : State) (rest : List Input) : (s.consume rest).identity = s.identity := rfl
@[simp] theorem State.consume_key0 (s : State) (rest : List Input) : (s.consume rest).key0 = s.key0 := rfl
@[simp] theorem State.consume_key1 (s : State) (rest : List Input) : (s.consume rest).key1 = s.key1 := rfl
@[simp] theorem State.consume_key2 (s : State) (rest : List Input) : (s.consume rest).key2 = s.key2 := rfl
@[simp] theorem State.consume_key3 (s : State) (rest : List Input) : (s.consume rest).key3 = s.key3 := rfl
@[simp] theorem State.consume_volume (s : State) (rest : List Input) : (s.consume rest).volume = s.volume := rfl
@[simp] theorem State.consume_target (s : State) (rest : List Input) : (s.consume rest).target = s.target := rfl
@[simp] theorem State.consume_info (s : State) (rest : List Input) : (s.consume rest).info = s.info := rfl
@[simp] theorem State.consume_temp (s : State) (rest : List Input) : (s.consume rest).temp = s.temp := rfl
@[simp] theorem State.consume_frame (s : State) (rest : List Input) : (s.consume rest).frame = s.frame := rfl
@[simp] theorem State.consume_scratch (s : State) (rest : List Input) : (s.consume rest).scratch = s.scratch := rfl
@[simp] theorem State.consume_faults (s : State) (rest : List Input) : (s.consume rest).faults = s.faults := rfl
@[simp] theorem State.consume_inputs (s : State) (rest : List Input) : (s.consume rest).inputs = rest := rfl
@[simp] theorem State.consume_answer (s : State) (rest : List Input) : (s.consume rest).answer = .quiet := rfl
@[simp] theorem State.consume_draws (s : State) (rest : List Input) : (s.consume rest).draws = s.draws := rfl
@[simp] theorem State.consume_frameDraw (s : State) (rest : List Input) : (s.consume rest).frameDraw = s.frameDraw := rfl

/-! ### State.respond -/

@[simp] theorem State.respond_phase (s : State) (a : Answer) : (s.respond a).phase = s.phase := rfl
@[simp] theorem State.respond_irqEn (s : State) (a : Answer) : (s.respond a).irqEn = s.irqEn := rfl
@[simp] theorem State.respond_done (s : State) (a : Answer) : (s.respond a).done = s.done := rfl
@[simp] theorem State.respond_valid (s : State) (a : Answer) : (s.respond a).valid = s.valid := rfl
@[simp] theorem State.respond_cfgLocked (s : State) (a : Answer) : (s.respond a).cfgLocked = s.cfgLocked := rfl
@[simp] theorem State.respond_result (s : State) (a : Answer) : (s.respond a).result = s.result := rfl
@[simp] theorem State.respond_errCmd (s : State) (a : Answer) : (s.respond a).errCmd = s.errCmd := rfl
@[simp] theorem State.respond_errBusy (s : State) (a : Answer) : (s.respond a).errBusy = s.errBusy := rfl
@[simp] theorem State.respond_errLocked (s : State) (a : Answer) : (s.respond a).errLocked = s.errLocked := rfl
@[simp] theorem State.respond_length (s : State) (a : Answer) : (s.respond a).length = s.length := rfl
@[simp] theorem State.respond_identity (s : State) (a : Answer) : (s.respond a).identity = s.identity := rfl
@[simp] theorem State.respond_key0 (s : State) (a : Answer) : (s.respond a).key0 = s.key0 := rfl
@[simp] theorem State.respond_key1 (s : State) (a : Answer) : (s.respond a).key1 = s.key1 := rfl
@[simp] theorem State.respond_key2 (s : State) (a : Answer) : (s.respond a).key2 = s.key2 := rfl
@[simp] theorem State.respond_key3 (s : State) (a : Answer) : (s.respond a).key3 = s.key3 := rfl
@[simp] theorem State.respond_volume (s : State) (a : Answer) : (s.respond a).volume = s.volume := rfl
@[simp] theorem State.respond_target (s : State) (a : Answer) : (s.respond a).target = s.target := rfl
@[simp] theorem State.respond_info (s : State) (a : Answer) : (s.respond a).info = s.info := rfl
@[simp] theorem State.respond_temp (s : State) (a : Answer) : (s.respond a).temp = s.temp := rfl
@[simp] theorem State.respond_frame (s : State) (a : Answer) : (s.respond a).frame = s.frame := rfl
@[simp] theorem State.respond_scratch (s : State) (a : Answer) : (s.respond a).scratch = s.scratch := rfl
@[simp] theorem State.respond_faults (s : State) (a : Answer) : (s.respond a).faults = s.faults := rfl
@[simp] theorem State.respond_inputs (s : State) (a : Answer) : (s.respond a).inputs = s.inputs := rfl
@[simp] theorem State.respond_answer (s : State) (a : Answer) : (s.respond a).answer = a := rfl
@[simp] theorem State.respond_draws (s : State) (a : Answer) : (s.respond a).draws = s.draws := rfl
@[simp] theorem State.respond_frameDraw (s : State) (a : Answer) : (s.respond a).frameDraw = s.frameDraw := rfl

/-! ### State.recordBusError -/

@[simp] theorem State.recordBusError_phase (s : State) (a n : Nat) : (s.recordBusError a n).phase = s.phase := rfl
@[simp] theorem State.recordBusError_irqEn (s : State) (a n : Nat) : (s.recordBusError a n).irqEn = s.irqEn := rfl
@[simp] theorem State.recordBusError_done (s : State) (a n : Nat) : (s.recordBusError a n).done = s.done := rfl
@[simp] theorem State.recordBusError_valid (s : State) (a n : Nat) : (s.recordBusError a n).valid = s.valid := rfl
@[simp] theorem State.recordBusError_cfgLocked (s : State) (a n : Nat) : (s.recordBusError a n).cfgLocked = s.cfgLocked := rfl
@[simp] theorem State.recordBusError_result (s : State) (a n : Nat) : (s.recordBusError a n).result = s.result := rfl
@[simp] theorem State.recordBusError_errCmd (s : State) (a n : Nat) : (s.recordBusError a n).errCmd = s.errCmd := rfl
@[simp] theorem State.recordBusError_errBusy (s : State) (a n : Nat) : (s.recordBusError a n).errBusy = s.errBusy := rfl
@[simp] theorem State.recordBusError_errLocked (s : State) (a n : Nat) : (s.recordBusError a n).errLocked = s.errLocked := rfl
@[simp] theorem State.recordBusError_length (s : State) (a n : Nat) : (s.recordBusError a n).length = s.length := rfl
@[simp] theorem State.recordBusError_identity (s : State) (a n : Nat) : (s.recordBusError a n).identity = s.identity := rfl
@[simp] theorem State.recordBusError_key0 (s : State) (a n : Nat) : (s.recordBusError a n).key0 = s.key0 := rfl
@[simp] theorem State.recordBusError_key1 (s : State) (a n : Nat) : (s.recordBusError a n).key1 = s.key1 := rfl
@[simp] theorem State.recordBusError_key2 (s : State) (a n : Nat) : (s.recordBusError a n).key2 = s.key2 := rfl
@[simp] theorem State.recordBusError_key3 (s : State) (a n : Nat) : (s.recordBusError a n).key3 = s.key3 := rfl
@[simp] theorem State.recordBusError_volume (s : State) (a n : Nat) : (s.recordBusError a n).volume = s.volume := rfl
@[simp] theorem State.recordBusError_target (s : State) (a n : Nat) : (s.recordBusError a n).target = s.target := rfl
@[simp] theorem State.recordBusError_info (s : State) (a n : Nat) : (s.recordBusError a n).info = s.info := rfl
@[simp] theorem State.recordBusError_temp (s : State) (a n : Nat) : (s.recordBusError a n).temp = s.temp := rfl
@[simp] theorem State.recordBusError_frame (s : State) (a n : Nat) : (s.recordBusError a n).frame = s.frame := rfl
@[simp] theorem State.recordBusError_scratch (s : State) (a n : Nat) : (s.recordBusError a n).scratch = s.scratch := rfl
@[simp] theorem State.recordBusError_faults (s : State) (a n : Nat) : (s.recordBusError a n).faults = s.faults ++ [.busError a n] := rfl
@[simp] theorem State.recordBusError_inputs (s : State) (a n : Nat) : (s.recordBusError a n).inputs = s.inputs := rfl
@[simp] theorem State.recordBusError_answer (s : State) (a n : Nat) : (s.recordBusError a n).answer = s.answer := rfl
@[simp] theorem State.recordBusError_draws (s : State) (a n : Nat) : (s.recordBusError a n).draws = s.draws := rfl
@[simp] theorem State.recordBusError_frameDraw (s : State) (a n : Nat) : (s.recordBusError a n).frameDraw = s.frameDraw := rfl

/-! ### State.writeCtrl -/

@[simp] theorem State.writeCtrl_phase (s : State) (v : Word) : (s.writeCtrl v).phase = s.phase := rfl
@[simp] theorem State.writeCtrl_irqEn (s : State) (v : Word) : (s.writeCtrl v).irqEn = v.getLsbD 0 := rfl
@[simp] theorem State.writeCtrl_done (s : State) (v : Word) : (s.writeCtrl v).done = s.done := rfl
@[simp] theorem State.writeCtrl_valid (s : State) (v : Word) : (s.writeCtrl v).valid = s.valid := rfl
@[simp] theorem State.writeCtrl_cfgLocked (s : State) (v : Word) : (s.writeCtrl v).cfgLocked = s.cfgLocked := rfl
@[simp] theorem State.writeCtrl_result (s : State) (v : Word) : (s.writeCtrl v).result = s.result := rfl
@[simp] theorem State.writeCtrl_errCmd (s : State) (v : Word) : (s.writeCtrl v).errCmd = s.errCmd := rfl
@[simp] theorem State.writeCtrl_errBusy (s : State) (v : Word) : (s.writeCtrl v).errBusy = s.errBusy := rfl
@[simp] theorem State.writeCtrl_errLocked (s : State) (v : Word) : (s.writeCtrl v).errLocked = s.errLocked := rfl
@[simp] theorem State.writeCtrl_length (s : State) (v : Word) : (s.writeCtrl v).length = s.length := rfl
@[simp] theorem State.writeCtrl_identity (s : State) (v : Word) : (s.writeCtrl v).identity = s.identity := rfl
@[simp] theorem State.writeCtrl_key0 (s : State) (v : Word) : (s.writeCtrl v).key0 = s.key0 := rfl
@[simp] theorem State.writeCtrl_key1 (s : State) (v : Word) : (s.writeCtrl v).key1 = s.key1 := rfl
@[simp] theorem State.writeCtrl_key2 (s : State) (v : Word) : (s.writeCtrl v).key2 = s.key2 := rfl
@[simp] theorem State.writeCtrl_key3 (s : State) (v : Word) : (s.writeCtrl v).key3 = s.key3 := rfl
@[simp] theorem State.writeCtrl_volume (s : State) (v : Word) : (s.writeCtrl v).volume = s.volume := rfl
@[simp] theorem State.writeCtrl_target (s : State) (v : Word) : (s.writeCtrl v).target = s.target := rfl
@[simp] theorem State.writeCtrl_info (s : State) (v : Word) : (s.writeCtrl v).info = s.info := rfl
@[simp] theorem State.writeCtrl_temp (s : State) (v : Word) : (s.writeCtrl v).temp = s.temp := rfl
@[simp] theorem State.writeCtrl_frame (s : State) (v : Word) : (s.writeCtrl v).frame = s.frame := rfl
@[simp] theorem State.writeCtrl_scratch (s : State) (v : Word) : (s.writeCtrl v).scratch = s.scratch := rfl
@[simp] theorem State.writeCtrl_faults (s : State) (v : Word) : (s.writeCtrl v).faults = s.faults := rfl
@[simp] theorem State.writeCtrl_inputs (s : State) (v : Word) : (s.writeCtrl v).inputs = s.inputs := rfl
@[simp] theorem State.writeCtrl_answer (s : State) (v : Word) : (s.writeCtrl v).answer = s.answer := rfl
@[simp] theorem State.writeCtrl_draws (s : State) (v : Word) : (s.writeCtrl v).draws = s.draws := rfl
@[simp] theorem State.writeCtrl_frameDraw (s : State) (v : Word) : (s.writeCtrl v).frameDraw = s.frameDraw := rfl

/-! ### State.clearErrors -/

@[simp] theorem State.clearErrors_phase (s : State) (v : Word) : (s.clearErrors v).phase = s.phase := rfl
@[simp] theorem State.clearErrors_irqEn (s : State) (v : Word) : (s.clearErrors v).irqEn = s.irqEn := rfl
@[simp] theorem State.clearErrors_done (s : State) (v : Word) : (s.clearErrors v).done = s.done := rfl
@[simp] theorem State.clearErrors_valid (s : State) (v : Word) : (s.clearErrors v).valid = s.valid := rfl
@[simp] theorem State.clearErrors_cfgLocked (s : State) (v : Word) : (s.clearErrors v).cfgLocked = s.cfgLocked := rfl
@[simp] theorem State.clearErrors_result (s : State) (v : Word) : (s.clearErrors v).result = s.result := rfl
@[simp] theorem State.clearErrors_errCmd (s : State) (v : Word) : (s.clearErrors v).errCmd = (s.errCmd && !v.getLsbD 8) := rfl
@[simp] theorem State.clearErrors_errBusy (s : State) (v : Word) : (s.clearErrors v).errBusy = (s.errBusy && !v.getLsbD 9) := rfl
@[simp] theorem State.clearErrors_errLocked (s : State) (v : Word) : (s.clearErrors v).errLocked = (s.errLocked && !v.getLsbD 10) := rfl
@[simp] theorem State.clearErrors_length (s : State) (v : Word) : (s.clearErrors v).length = s.length := rfl
@[simp] theorem State.clearErrors_identity (s : State) (v : Word) : (s.clearErrors v).identity = s.identity := rfl
@[simp] theorem State.clearErrors_key0 (s : State) (v : Word) : (s.clearErrors v).key0 = s.key0 := rfl
@[simp] theorem State.clearErrors_key1 (s : State) (v : Word) : (s.clearErrors v).key1 = s.key1 := rfl
@[simp] theorem State.clearErrors_key2 (s : State) (v : Word) : (s.clearErrors v).key2 = s.key2 := rfl
@[simp] theorem State.clearErrors_key3 (s : State) (v : Word) : (s.clearErrors v).key3 = s.key3 := rfl
@[simp] theorem State.clearErrors_volume (s : State) (v : Word) : (s.clearErrors v).volume = s.volume := rfl
@[simp] theorem State.clearErrors_target (s : State) (v : Word) : (s.clearErrors v).target = s.target := rfl
@[simp] theorem State.clearErrors_info (s : State) (v : Word) : (s.clearErrors v).info = s.info := rfl
@[simp] theorem State.clearErrors_temp (s : State) (v : Word) : (s.clearErrors v).temp = s.temp := rfl
@[simp] theorem State.clearErrors_frame (s : State) (v : Word) : (s.clearErrors v).frame = s.frame := rfl
@[simp] theorem State.clearErrors_scratch (s : State) (v : Word) : (s.clearErrors v).scratch = s.scratch := rfl
@[simp] theorem State.clearErrors_faults (s : State) (v : Word) : (s.clearErrors v).faults = s.faults := rfl
@[simp] theorem State.clearErrors_inputs (s : State) (v : Word) : (s.clearErrors v).inputs = s.inputs := rfl
@[simp] theorem State.clearErrors_answer (s : State) (v : Word) : (s.clearErrors v).answer = s.answer := rfl
@[simp] theorem State.clearErrors_draws (s : State) (v : Word) : (s.clearErrors v).draws = s.draws := rfl
@[simp] theorem State.clearErrors_frameDraw (s : State) (v : Word) : (s.clearErrors v).frameDraw = s.frameDraw := rfl

/-! ### State.resetBlock -/

@[simp] theorem State.resetBlock_phase (s : State) : (s.resetBlock).phase = .idle := rfl
@[simp] theorem State.resetBlock_irqEn (s : State) : (s.resetBlock).irqEn = false := rfl
@[simp] theorem State.resetBlock_done (s : State) : (s.resetBlock).done = false := rfl
@[simp] theorem State.resetBlock_valid (s : State) : (s.resetBlock).valid = false := rfl
@[simp] theorem State.resetBlock_cfgLocked (s : State) : (s.resetBlock).cfgLocked = false := rfl
@[simp] theorem State.resetBlock_result (s : State) : (s.resetBlock).result = .none := rfl
@[simp] theorem State.resetBlock_errCmd (s : State) : (s.resetBlock).errCmd = false := rfl
@[simp] theorem State.resetBlock_errBusy (s : State) : (s.resetBlock).errBusy = false := rfl
@[simp] theorem State.resetBlock_errLocked (s : State) : (s.resetBlock).errLocked = false := rfl
@[simp] theorem State.resetBlock_length (s : State) : (s.resetBlock).length = 0 := rfl
@[simp] theorem State.resetBlock_identity (s : State) : (s.resetBlock).identity = 0 := rfl
@[simp] theorem State.resetBlock_key0 (s : State) : (s.resetBlock).key0 = 0 := rfl
@[simp] theorem State.resetBlock_key1 (s : State) : (s.resetBlock).key1 = 0 := rfl
@[simp] theorem State.resetBlock_key2 (s : State) : (s.resetBlock).key2 = 0 := rfl
@[simp] theorem State.resetBlock_key3 (s : State) : (s.resetBlock).key3 = 0 := rfl
@[simp] theorem State.resetBlock_volume (s : State) : (s.resetBlock).volume = 0 := rfl
@[simp] theorem State.resetBlock_target (s : State) : (s.resetBlock).target = 0 := rfl
@[simp] theorem State.resetBlock_info (s : State) : (s.resetBlock).info = 0 := rfl
@[simp] theorem State.resetBlock_temp (s : State) : (s.resetBlock).temp = 0 := rfl
@[simp] theorem State.resetBlock_frame (s : State) : (s.resetBlock).frame = [] := rfl
@[simp] theorem State.resetBlock_scratch (s : State) : (s.resetBlock).scratch = Config.freeScratch s.draws := rfl
@[simp] theorem State.resetBlock_faults (s : State) : (s.resetBlock).faults = s.faults := rfl
@[simp] theorem State.resetBlock_inputs (s : State) : (s.resetBlock).inputs = s.inputs := rfl
@[simp] theorem State.resetBlock_answer (s : State) : (s.resetBlock).answer = s.answer := rfl
@[simp] theorem State.resetBlock_draws (s : State) : (s.resetBlock).draws = s.draws + 1 := rfl
@[simp] theorem State.resetBlock_frameDraw (s : State) : (s.resetBlock).frameDraw = s.draws := rfl

/-! ### Updates that depend on a condition -/

@[simp] theorem State.setFrameByte_phase (s : State) (i : Nat) (v : Byte) : (s.setFrameByte i v).phase = s.phase := by
  unfold State.setFrameByte; split <;> rfl
@[simp] theorem State.setFrameByte_irqEn (s : State) (i : Nat) (v : Byte) : (s.setFrameByte i v).irqEn = s.irqEn := by
  unfold State.setFrameByte; split <;> rfl
@[simp] theorem State.setFrameByte_done (s : State) (i : Nat) (v : Byte) : (s.setFrameByte i v).done = s.done := by
  unfold State.setFrameByte; split <;> rfl
@[simp] theorem State.setFrameByte_valid (s : State) (i : Nat) (v : Byte) : (s.setFrameByte i v).valid = s.valid := by
  unfold State.setFrameByte; split <;> rfl
@[simp] theorem State.setFrameByte_cfgLocked (s : State) (i : Nat) (v : Byte) : (s.setFrameByte i v).cfgLocked = s.cfgLocked := by
  unfold State.setFrameByte; split <;> rfl
@[simp] theorem State.setFrameByte_result (s : State) (i : Nat) (v : Byte) : (s.setFrameByte i v).result = s.result := by
  unfold State.setFrameByte; split <;> rfl
@[simp] theorem State.setFrameByte_errCmd (s : State) (i : Nat) (v : Byte) : (s.setFrameByte i v).errCmd = s.errCmd := by
  unfold State.setFrameByte; split <;> rfl
@[simp] theorem State.setFrameByte_errBusy (s : State) (i : Nat) (v : Byte) : (s.setFrameByte i v).errBusy = s.errBusy := by
  unfold State.setFrameByte; split <;> rfl
@[simp] theorem State.setFrameByte_errLocked (s : State) (i : Nat) (v : Byte) : (s.setFrameByte i v).errLocked = s.errLocked := by
  unfold State.setFrameByte; split <;> rfl
@[simp] theorem State.setFrameByte_length (s : State) (i : Nat) (v : Byte) : (s.setFrameByte i v).length = s.length := by
  unfold State.setFrameByte; split <;> rfl
@[simp] theorem State.setFrameByte_identity (s : State) (i : Nat) (v : Byte) : (s.setFrameByte i v).identity = s.identity := by
  unfold State.setFrameByte; split <;> rfl
@[simp] theorem State.setFrameByte_key0 (s : State) (i : Nat) (v : Byte) : (s.setFrameByte i v).key0 = s.key0 := by
  unfold State.setFrameByte; split <;> rfl
@[simp] theorem State.setFrameByte_key1 (s : State) (i : Nat) (v : Byte) : (s.setFrameByte i v).key1 = s.key1 := by
  unfold State.setFrameByte; split <;> rfl
@[simp] theorem State.setFrameByte_key2 (s : State) (i : Nat) (v : Byte) : (s.setFrameByte i v).key2 = s.key2 := by
  unfold State.setFrameByte; split <;> rfl
@[simp] theorem State.setFrameByte_key3 (s : State) (i : Nat) (v : Byte) : (s.setFrameByte i v).key3 = s.key3 := by
  unfold State.setFrameByte; split <;> rfl
@[simp] theorem State.setFrameByte_volume (s : State) (i : Nat) (v : Byte) : (s.setFrameByte i v).volume = s.volume := by
  unfold State.setFrameByte; split <;> rfl
@[simp] theorem State.setFrameByte_target (s : State) (i : Nat) (v : Byte) : (s.setFrameByte i v).target = s.target := by
  unfold State.setFrameByte; split <;> rfl
@[simp] theorem State.setFrameByte_info (s : State) (i : Nat) (v : Byte) : (s.setFrameByte i v).info = s.info := by
  unfold State.setFrameByte; split <;> rfl
@[simp] theorem State.setFrameByte_temp (s : State) (i : Nat) (v : Byte) : (s.setFrameByte i v).temp = s.temp := by
  unfold State.setFrameByte; split <;> rfl
@[simp] theorem State.setFrameByte_scratch (s : State) (i : Nat) (v : Byte) : (s.setFrameByte i v).scratch = s.scratch := by
  unfold State.setFrameByte; split <;> rfl
@[simp] theorem State.setFrameByte_faults (s : State) (i : Nat) (v : Byte) : (s.setFrameByte i v).faults = s.faults := by
  unfold State.setFrameByte; split <;> rfl
@[simp] theorem State.setFrameByte_inputs (s : State) (i : Nat) (v : Byte) : (s.setFrameByte i v).inputs = s.inputs := by
  unfold State.setFrameByte; split <;> rfl
@[simp] theorem State.setFrameByte_answer (s : State) (i : Nat) (v : Byte) : (s.setFrameByte i v).answer = s.answer := by
  unfold State.setFrameByte; split <;> rfl
@[simp] theorem State.setFrameByte_draws (s : State) (i : Nat) (v : Byte) : (s.setFrameByte i v).draws = s.draws := by
  unfold State.setFrameByte; split <;> rfl
@[simp] theorem State.setFrameByte_frameDraw (s : State) (i : Nat) (v : Byte) : (s.setFrameByte i v).frameDraw = s.frameDraw := by
  unfold State.setFrameByte; split <;> rfl

@[simp] theorem State.setFrameWord_phase (s : State) (w : Fin 32) (v : Word) : (s.setFrameWord w v).phase = s.phase := by
  simp [State.setFrameWord]
@[simp] theorem State.setFrameWord_irqEn (s : State) (w : Fin 32) (v : Word) : (s.setFrameWord w v).irqEn = s.irqEn := by
  simp [State.setFrameWord]
@[simp] theorem State.setFrameWord_done (s : State) (w : Fin 32) (v : Word) : (s.setFrameWord w v).done = s.done := by
  simp [State.setFrameWord]
@[simp] theorem State.setFrameWord_valid (s : State) (w : Fin 32) (v : Word) : (s.setFrameWord w v).valid = s.valid := by
  simp [State.setFrameWord]
@[simp] theorem State.setFrameWord_cfgLocked (s : State) (w : Fin 32) (v : Word) : (s.setFrameWord w v).cfgLocked = s.cfgLocked := by
  simp [State.setFrameWord]
@[simp] theorem State.setFrameWord_result (s : State) (w : Fin 32) (v : Word) : (s.setFrameWord w v).result = s.result := by
  simp [State.setFrameWord]
@[simp] theorem State.setFrameWord_errCmd (s : State) (w : Fin 32) (v : Word) : (s.setFrameWord w v).errCmd = s.errCmd := by
  simp [State.setFrameWord]
@[simp] theorem State.setFrameWord_errBusy (s : State) (w : Fin 32) (v : Word) : (s.setFrameWord w v).errBusy = s.errBusy := by
  simp [State.setFrameWord]
@[simp] theorem State.setFrameWord_errLocked (s : State) (w : Fin 32) (v : Word) : (s.setFrameWord w v).errLocked = s.errLocked := by
  simp [State.setFrameWord]
@[simp] theorem State.setFrameWord_length (s : State) (w : Fin 32) (v : Word) : (s.setFrameWord w v).length = s.length := by
  simp [State.setFrameWord]
@[simp] theorem State.setFrameWord_identity (s : State) (w : Fin 32) (v : Word) : (s.setFrameWord w v).identity = s.identity := by
  simp [State.setFrameWord]
@[simp] theorem State.setFrameWord_key0 (s : State) (w : Fin 32) (v : Word) : (s.setFrameWord w v).key0 = s.key0 := by
  simp [State.setFrameWord]
@[simp] theorem State.setFrameWord_key1 (s : State) (w : Fin 32) (v : Word) : (s.setFrameWord w v).key1 = s.key1 := by
  simp [State.setFrameWord]
@[simp] theorem State.setFrameWord_key2 (s : State) (w : Fin 32) (v : Word) : (s.setFrameWord w v).key2 = s.key2 := by
  simp [State.setFrameWord]
@[simp] theorem State.setFrameWord_key3 (s : State) (w : Fin 32) (v : Word) : (s.setFrameWord w v).key3 = s.key3 := by
  simp [State.setFrameWord]
@[simp] theorem State.setFrameWord_volume (s : State) (w : Fin 32) (v : Word) : (s.setFrameWord w v).volume = s.volume := by
  simp [State.setFrameWord]
@[simp] theorem State.setFrameWord_target (s : State) (w : Fin 32) (v : Word) : (s.setFrameWord w v).target = s.target := by
  simp [State.setFrameWord]
@[simp] theorem State.setFrameWord_info (s : State) (w : Fin 32) (v : Word) : (s.setFrameWord w v).info = s.info := by
  simp [State.setFrameWord]
@[simp] theorem State.setFrameWord_temp (s : State) (w : Fin 32) (v : Word) : (s.setFrameWord w v).temp = s.temp := by
  simp [State.setFrameWord]
@[simp] theorem State.setFrameWord_scratch (s : State) (w : Fin 32) (v : Word) : (s.setFrameWord w v).scratch = s.scratch := by
  simp [State.setFrameWord]
@[simp] theorem State.setFrameWord_faults (s : State) (w : Fin 32) (v : Word) : (s.setFrameWord w v).faults = s.faults := by
  simp [State.setFrameWord]
@[simp] theorem State.setFrameWord_inputs (s : State) (w : Fin 32) (v : Word) : (s.setFrameWord w v).inputs = s.inputs := by
  simp [State.setFrameWord]
@[simp] theorem State.setFrameWord_answer (s : State) (w : Fin 32) (v : Word) : (s.setFrameWord w v).answer = s.answer := by
  simp [State.setFrameWord]
@[simp] theorem State.setFrameWord_draws (s : State) (w : Fin 32) (v : Word) : (s.setFrameWord w v).draws = s.draws := by
  simp [State.setFrameWord]
@[simp] theorem State.setFrameWord_frameDraw (s : State) (w : Fin 32) (v : Word) : (s.setFrameWord w v).frameDraw = s.frameDraw := by
  simp [State.setFrameWord]

@[simp] theorem State.setKey_phase (s : State) (j : Fin 4) (v : Word) : (s.setKey j v).phase = s.phase := by
  unfold State.setKey; split <;> rfl
@[simp] theorem State.setKey_irqEn (s : State) (j : Fin 4) (v : Word) : (s.setKey j v).irqEn = s.irqEn := by
  unfold State.setKey; split <;> rfl
@[simp] theorem State.setKey_done (s : State) (j : Fin 4) (v : Word) : (s.setKey j v).done = s.done := by
  unfold State.setKey; split <;> rfl
@[simp] theorem State.setKey_valid (s : State) (j : Fin 4) (v : Word) : (s.setKey j v).valid = s.valid := by
  unfold State.setKey; split <;> rfl
@[simp] theorem State.setKey_cfgLocked (s : State) (j : Fin 4) (v : Word) : (s.setKey j v).cfgLocked = s.cfgLocked := by
  unfold State.setKey; split <;> rfl
@[simp] theorem State.setKey_result (s : State) (j : Fin 4) (v : Word) : (s.setKey j v).result = s.result := by
  unfold State.setKey; split <;> rfl
@[simp] theorem State.setKey_errCmd (s : State) (j : Fin 4) (v : Word) : (s.setKey j v).errCmd = s.errCmd := by
  unfold State.setKey; split <;> rfl
@[simp] theorem State.setKey_errBusy (s : State) (j : Fin 4) (v : Word) : (s.setKey j v).errBusy = s.errBusy := by
  unfold State.setKey; split <;> rfl
@[simp] theorem State.setKey_errLocked (s : State) (j : Fin 4) (v : Word) : (s.setKey j v).errLocked = s.errLocked := by
  unfold State.setKey; split <;> rfl
@[simp] theorem State.setKey_length (s : State) (j : Fin 4) (v : Word) : (s.setKey j v).length = s.length := by
  unfold State.setKey; split <;> rfl
@[simp] theorem State.setKey_identity (s : State) (j : Fin 4) (v : Word) : (s.setKey j v).identity = s.identity := by
  unfold State.setKey; split <;> rfl
@[simp] theorem State.setKey_volume (s : State) (j : Fin 4) (v : Word) : (s.setKey j v).volume = s.volume := by
  unfold State.setKey; split <;> rfl
@[simp] theorem State.setKey_target (s : State) (j : Fin 4) (v : Word) : (s.setKey j v).target = s.target := by
  unfold State.setKey; split <;> rfl
@[simp] theorem State.setKey_info (s : State) (j : Fin 4) (v : Word) : (s.setKey j v).info = s.info := by
  unfold State.setKey; split <;> rfl
@[simp] theorem State.setKey_temp (s : State) (j : Fin 4) (v : Word) : (s.setKey j v).temp = s.temp := by
  unfold State.setKey; split <;> rfl
@[simp] theorem State.setKey_frame (s : State) (j : Fin 4) (v : Word) : (s.setKey j v).frame = s.frame := by
  unfold State.setKey; split <;> rfl
@[simp] theorem State.setKey_scratch (s : State) (j : Fin 4) (v : Word) : (s.setKey j v).scratch = s.scratch := by
  unfold State.setKey; split <;> rfl
@[simp] theorem State.setKey_faults (s : State) (j : Fin 4) (v : Word) : (s.setKey j v).faults = s.faults := by
  unfold State.setKey; split <;> rfl
@[simp] theorem State.setKey_inputs (s : State) (j : Fin 4) (v : Word) : (s.setKey j v).inputs = s.inputs := by
  unfold State.setKey; split <;> rfl
@[simp] theorem State.setKey_answer (s : State) (j : Fin 4) (v : Word) : (s.setKey j v).answer = s.answer := by
  unfold State.setKey; split <;> rfl
@[simp] theorem State.setKey_draws (s : State) (j : Fin 4) (v : Word) : (s.setKey j v).draws = s.draws := by
  unfold State.setKey; split <;> rfl
@[simp] theorem State.setKey_frameDraw (s : State) (j : Fin 4) (v : Word) : (s.setKey j v).frameDraw = s.frameDraw := by
  unfold State.setKey; split <;> rfl

@[simp] theorem State.setKey_keyWord (s : State) (j k : Fin 4) (v : Word) :
    (s.setKey j v).keyWord k = if k = j then v else s.keyWord k := by
  fin_cases j <;> fin_cases k <;> rfl

@[simp] theorem State.writeStatus_phase (s : State) (v : Word) : (s.writeStatus v).phase = s.phase := by
  unfold State.writeStatus; split <;> rfl
@[simp] theorem State.writeStatus_irqEn (s : State) (v : Word) : (s.writeStatus v).irqEn = s.irqEn := by
  unfold State.writeStatus; split <;> rfl
@[simp] theorem State.writeStatus_done (s : State) (v : Word) : (s.writeStatus v).done = (s.done && !v.getLsbD 1) := by
  unfold State.writeStatus; split <;> simp_all
@[simp] theorem State.writeStatus_valid (s : State) (v : Word) : (s.writeStatus v).valid = s.valid := by
  unfold State.writeStatus; split <;> rfl
@[simp] theorem State.writeStatus_cfgLocked (s : State) (v : Word) : (s.writeStatus v).cfgLocked = s.cfgLocked := by
  unfold State.writeStatus; split <;> rfl
@[simp] theorem State.writeStatus_result (s : State) (v : Word) : (s.writeStatus v).result = s.result := by
  unfold State.writeStatus; split <;> rfl
@[simp] theorem State.writeStatus_errCmd (s : State) (v : Word) : (s.writeStatus v).errCmd = (s.errCmd && !v.getLsbD 8) := by
  unfold State.writeStatus; split <;> rfl
@[simp] theorem State.writeStatus_errBusy (s : State) (v : Word) : (s.writeStatus v).errBusy = (s.errBusy && !v.getLsbD 9) := by
  unfold State.writeStatus; split <;> rfl
@[simp] theorem State.writeStatus_errLocked (s : State) (v : Word) : (s.writeStatus v).errLocked = (s.errLocked && !v.getLsbD 10) := by
  unfold State.writeStatus; split <;> rfl
@[simp] theorem State.writeStatus_length (s : State) (v : Word) : (s.writeStatus v).length = s.length := by
  unfold State.writeStatus; split <;> rfl
@[simp] theorem State.writeStatus_identity (s : State) (v : Word) : (s.writeStatus v).identity = s.identity := by
  unfold State.writeStatus; split <;> rfl
@[simp] theorem State.writeStatus_key0 (s : State) (v : Word) : (s.writeStatus v).key0 = s.key0 := by
  unfold State.writeStatus; split <;> rfl
@[simp] theorem State.writeStatus_key1 (s : State) (v : Word) : (s.writeStatus v).key1 = s.key1 := by
  unfold State.writeStatus; split <;> rfl
@[simp] theorem State.writeStatus_key2 (s : State) (v : Word) : (s.writeStatus v).key2 = s.key2 := by
  unfold State.writeStatus; split <;> rfl
@[simp] theorem State.writeStatus_key3 (s : State) (v : Word) : (s.writeStatus v).key3 = s.key3 := by
  unfold State.writeStatus; split <;> rfl
@[simp] theorem State.writeStatus_volume (s : State) (v : Word) : (s.writeStatus v).volume = s.volume := by
  unfold State.writeStatus; split <;> rfl
@[simp] theorem State.writeStatus_target (s : State) (v : Word) : (s.writeStatus v).target = s.target := by
  unfold State.writeStatus; split <;> rfl
@[simp] theorem State.writeStatus_info (s : State) (v : Word) : (s.writeStatus v).info = s.info := by
  unfold State.writeStatus; split <;> rfl
@[simp] theorem State.writeStatus_temp (s : State) (v : Word) : (s.writeStatus v).temp = s.temp := by
  unfold State.writeStatus; split <;> rfl
@[simp] theorem State.writeStatus_frame (s : State) (v : Word) : (s.writeStatus v).frame = s.frame := by
  unfold State.writeStatus; split <;> rfl
@[simp] theorem State.writeStatus_scratch (s : State) (v : Word) : (s.writeStatus v).scratch = s.scratch := by
  unfold State.writeStatus; split <;> rfl
@[simp] theorem State.writeStatus_faults (s : State) (v : Word) : (s.writeStatus v).faults = s.faults := by
  unfold State.writeStatus; split <;> rfl
@[simp] theorem State.writeStatus_inputs (s : State) (v : Word) : (s.writeStatus v).inputs = s.inputs := by
  unfold State.writeStatus; split <;> rfl
@[simp] theorem State.writeStatus_answer (s : State) (v : Word) : (s.writeStatus v).answer = s.answer := by
  unfold State.writeStatus; split <;> rfl
@[simp] theorem State.writeStatus_draws (s : State) (v : Word) : (s.writeStatus v).draws = s.draws := by
  unfold State.writeStatus; split <;> rfl
@[simp] theorem State.writeStatus_frameDraw (s : State) (v : Word) : (s.writeStatus v).frameDraw = s.frameDraw := by
  unfold State.writeStatus; split <;> rfl

/-! ### Views under updates that leave what they read -/

@[simp] theorem State.clearScratch_frameByte (s : State) (i : Nat) : (s.clearScratch).frameByte i = s.frameByte i := rfl
@[simp] theorem State.scrambleScratch_frameByte (s : State) (i : Nat) : (s.scrambleScratch).frameByte i = s.frameByte i := rfl
@[simp] theorem State.clearResults_frameByte (s : State) (i : Nat) : (s.clearResults).frameByte i = s.frameByte i := rfl
@[simp] theorem State.post_frameByte (s : State) (code : ResultCode) (rd : Reading) (i : Nat) : (s.post code rd).frameByte i = s.frameByte i := rfl
@[simp] theorem State.acknowledge_frameByte (s : State) (i : Nat) : (s.acknowledge).frameByte i = s.frameByte i := rfl
@[simp] theorem State.raiseErrCmd_frameByte (s : State) (i : Nat) : (s.raiseErrCmd).frameByte i = s.frameByte i := rfl
@[simp] theorem State.raiseErrBusy_frameByte (s : State) (i : Nat) : (s.raiseErrBusy).frameByte i = s.frameByte i := rfl
@[simp] theorem State.raiseErrLocked_frameByte (s : State) (i : Nat) : (s.raiseErrLocked).frameByte i = s.frameByte i := rfl
@[simp] theorem State.setLength_frameByte (s : State) (v : Word) (i : Nat) : (s.setLength v).frameByte i = s.frameByte i := rfl
@[simp] theorem State.setIdentity_frameByte (s : State) (v : Word) (i : Nat) : (s.setIdentity v).frameByte i = s.frameByte i := rfl
@[simp] theorem State.lockConfig_frameByte (s : State) (i : Nat) : (s.lockConfig).frameByte i = s.frameByte i := rfl
@[simp] theorem State.becomeBusy_frameByte (s : State) (i : Nat) : (s.becomeBusy).frameByte i = s.frameByte i := rfl
@[simp] theorem State.consume_frameByte (s : State) (rest : List Input) (i : Nat) : (s.consume rest).frameByte i = s.frameByte i := rfl
@[simp] theorem State.respond_frameByte (s : State) (a : Answer) (i : Nat) : (s.respond a).frameByte i = s.frameByte i := rfl
@[simp] theorem State.recordBusError_frameByte (s : State) (a n : Nat) (i : Nat) : (s.recordBusError a n).frameByte i = s.frameByte i := rfl
@[simp] theorem State.writeCtrl_frameByte (s : State) (v : Word) (i : Nat) : (s.writeCtrl v).frameByte i = s.frameByte i := rfl
@[simp] theorem State.clearErrors_frameByte (s : State) (v : Word) (i : Nat) : (s.clearErrors v).frameByte i = s.frameByte i := rfl
@[simp] theorem State.writeStatus_frameByte (s : State) (v : Word) (i : Nat) :
    (s.writeStatus v).frameByte i = s.frameByte i := by
  unfold State.writeStatus; split <;> rfl
@[simp] theorem State.setKey_frameByte (s : State) (j : Fin 4) (v : Word) (i : Nat) :
    (s.setKey j v).frameByte i = s.frameByte i := by
  unfold State.setKey; split <;> rfl

end Sys2Proof.Machine
end

