-- ==== Sys2Proof/Laws/Memory.lean ====
section
/-! SUPPORT. The laws of the frame buffer: a read after a write, and that every operation keeps the
canonical form. -/

namespace Sys2Proof.Machine

@[simp] theorem Memory.get?_nil (a : Nat) : Memory.get? [] a = none := rfl

/-- A read after a write: the byte written at its place, the old byte everywhere else. -/
theorem Memory.get?_set (m : Memory) (a b : Nat) (v : Byte) :
    Memory.get? (Memory.set m a v) b = if b = a then some v else Memory.get? m b := by
  induction m with
  | nil => simp only [Memory.set, Memory.get?, eq_comm]
  | cons c rest ih =>
    obtain ⟨k, u⟩ := c
    simp only [Memory.set]
    split
    · simp only [Memory.get?, eq_comm]
    · split
      · simp only [Memory.get?]; grind
      · simp only [Memory.get?, ih]; grind

@[simp] theorem Memory.get?_set_self (m : Memory) (a : Nat) (v : Byte) :
    Memory.get? (Memory.set m a v) a = some v := by simp [Memory.get?_set]

theorem Memory.get?_set_ne (m : Memory) {a b : Nat} (v : Byte) (h : b ≠ a) :
    Memory.get? (Memory.set m a v) b = Memory.get? m b := by simp [Memory.get?_set, h]

/-- The indices of a memory after a write are the old ones and the one written. -/
theorem Memory.all_set (m : Memory) (a : Nat) (v : Byte) (p : Nat → Bool) :
    (Memory.set m a v).all (fun c => p c.1) = (p a && m.all (fun c => p c.1)) := by
  induction m with
  | nil => rfl
  | cons c rest ih =>
    obtain ⟨k, u⟩ := c
    simp only [Memory.set]
    split
    · rfl
    · split
      · next h => subst h; simp
      · simp only [List.all_cons, ih]; grind

/-- A write inside the frame buffer keeps the canonical form. -/
theorem Memory.set_wf (m : Memory) {a : Nat} (v : Byte) (ha : a < Config.maxTelegram)
    (h : Memory.wf m = true) : Memory.wf (Memory.set m a v) = true := by
  induction m with
  | nil => simp [Memory.set, Memory.wf, ha]
  | cons c rest ih =>
    obtain ⟨k, u⟩ := c
    simp only [Memory.wf, Bool.and_eq_true, decide_eq_true_eq] at h
    obtain ⟨⟨hk, hrest⟩, hwf⟩ := h
    simp only [Memory.set]
    split
    · next hlt =>
      have hall : rest.all (fun c => decide (a < c.1)) = true := by
        simp only [List.all_eq_true, decide_eq_true_eq] at hrest ⊢
        exact fun c hc => Nat.lt_trans hlt (hrest c hc)
      simp [Memory.wf, ha, hk, hlt, hrest, hwf, hall]
    · split
      · next heq => subst heq; simp [Memory.wf, ha, hrest, hwf]
      · next hnlt hne =>
        have hlt : k < a := by omega
        simp [Memory.wf, hk, Memory.all_set rest a v (fun x => decide (k < x)), hlt, hrest, ih hwf]

/-- A rising run of zero cells is canonical, and every index of it reads 0. -/
theorem Memory.wf_map_range' (n b : Nat) (h : b + n ≤ Config.maxTelegram) :
    Memory.wf ((List.range' b n).map (fun i => (i, 0))) = true := by
  induction n generalizing b with
  | zero => rfl
  | succ n ih =>
    rw [List.range'_succ, List.map_cons, Memory.wf, ih (b + 1) (by omega)]
    simp only [Bool.and_true, Bool.and_eq_true, decide_eq_true_eq, List.all_eq_true, List.mem_map]
    refine ⟨by omega, ?_⟩
    rintro c ⟨i, hi, rfl⟩
    have := (List.mem_range'_1.mp hi).1
    simpa using this

theorem Memory.get?_map_range' (n b i : Nat) (h : b ≤ i ∧ i < b + n) :
    Memory.get? ((List.range' b n).map (fun i => (i, 0))) i = some 0 := by
  induction n generalizing b with
  | zero => omega
  | succ n ih =>
    rw [List.range'_succ, List.map_cons, Memory.get?]
    split
    · rfl
    · exact ih (b + 1) (by omega)

@[simp] theorem zeroFrame_wf : Memory.wf zeroFrame = true := by
  rw [zeroFrame, List.range_eq_range']; exact Memory.wf_map_range' _ _ (by omega)

theorem zeroFrame_get? {i : Nat} (h : i < Config.maxTelegram) : Memory.get? zeroFrame i = some 0 := by
  rw [zeroFrame, List.range_eq_range']; exact Memory.get?_map_range' _ _ _ (by omega)

/-- The frame buffer is in its canonical form after reset. -/
theorem reset_frame_wf : Memory.wf State.reset.frame = true := rfl

/-! ## Frame bytes -/

/-- A frame byte after a write: the byte written at its place inside the buffer, the old byte elsewhere. -/
theorem State.frameByte_setFrameByte (s : State) (i j : Nat) (v : Byte) :
    (s.setFrameByte i v).frameByte j =
      if j = i ∧ i < Config.maxTelegram then v else s.frameByte j := by
  unfold State.setFrameByte State.frameByte
  by_cases hi : i < Config.maxTelegram <;> by_cases hj : j = i <;> simp [hi, hj, Memory.get?_set]

/-- A write of a frame byte keeps the canonical form, inside the buffer and at the ignored byte 127. -/
theorem State.setFrameByte_wf (s : State) (i : Nat) (v : Byte) (h : Memory.wf s.frame = true) :
    Memory.wf (s.setFrameByte i v).frame = true := by
  unfold State.setFrameByte
  split
  · next hi => exact Memory.set_wf _ _ hi h
  · exact h

/-- A write of a frame word keeps the canonical form. -/
theorem State.setFrameWord_wf (s : State) (w : Fin 32) (v : Word) (h : Memory.wf s.frame = true) :
    Memory.wf (s.setFrameWord w v).frame = true :=
  State.setFrameByte_wf _ _ _ (State.setFrameByte_wf _ _ _ (State.setFrameByte_wf _ _ _
    (State.setFrameByte_wf _ _ _ h)))

/-- After ARM's clearing every byte reads 0 (R136), the window byte 127 as always (R53). -/
@[simp] theorem State.frameByte_clearFrame (s : State) (i : Nat) : s.clearFrame.frameByte i = 0 := by
  unfold State.frameByte State.clearFrame
  split
  · next h => simp [zeroFrame_get? h]
  · rfl

/-- The window byte 127 is not part of the buffer (R53). -/
theorem State.frameByte_of_le (s : State) {i : Nat} (h : Config.maxTelegram ≤ i) : s.frameByte i = 0 := by
  simp [State.frameByte, Nat.not_lt.mpr h]

/-- Which bytes a write of a frame word changes, and to what (20_memory.md R77). -/
theorem State.frameByte_setFrameWord (s : State) (w : Fin 32) (v : Word) (j : Nat) :
    (s.setFrameWord w v).frameByte j =
      if j / 4 = w.val ∧ j < Config.maxTelegram then byteOf v (j % 4) else s.frameByte j := by
  have hw := w.isLt
  simp only [State.setFrameWord, State.frameByte_setFrameByte]
  split
  · next h => rw [if_pos (by omega)]; congr 1; omega
  · split
    · next h1 h => rw [if_pos (by omega)]; congr 1; omega
    · split
      · next h1 h2 h => rw [if_pos (by omega)]; congr 1; omega
      · split
        · next h1 h2 h3 h => rw [if_pos (by omega)]; congr 1; omega
        · next h1 h2 h3 h4 => rw [if_neg (by simp only [Config.maxTelegram] at *; omega)]

end Sys2Proof.Machine
end

