-- ==== Sys2Proof/Laws/PerInstr.lean ====
section
/-! SUPPORT. Per-command facts about the syntax (30_encoding.md R100-R103): one lemma per constructor. -/

namespace Sys2Proof.Laws.CommandWord

/-- A command is well formed, its word has zero MBZ bits and its own opcode, and decodes to it. -/
def Statement (i : Instr) : Prop :=
  i.wellFormed = true ∧ mbzField (encode i) = 0 ∧ opcodeField (encode i) = i.opcode ∧
    decodeWord (encode i) = .ok i

theorem nop : Statement .nop := by refine ⟨rfl, ?_, ?_, ?_⟩ <;> rfl
theorem arm : Statement .arm := by refine ⟨rfl, ?_, ?_, ?_⟩ <;> rfl
theorem decode : Statement .decode := by refine ⟨rfl, ?_, ?_, ?_⟩ <;> rfl
theorem lockCfg : Statement .lockCfg := by refine ⟨rfl, ?_, ?_, ?_⟩ <;> rfl

end Sys2Proof.Laws.CommandWord
end

