-- ==== Sys2Proof/Laws/Port.lean ====
section
/-! SUPPORT. What the gates, the port and one step can do, said once: later proofs cite these and do not
unfold the operations. -/

namespace Sys2Proof.Machine

/-! ## The gates (20_memory.md R78, R79) -/

theorem gateBusy_idle {s : State} (h : s.phase = .idle) (f : State → State) : gateBusy s f = f s := by
  simp [gateBusy, h]

theorem gateBusy_busy {s : State} (h : s.phase = .busy) (f : State → State) :
    gateBusy s f = s.raiseErrBusy := by simp [gateBusy, h]

/-- What a guarded write can do. -/
theorem gateBusy_cases (s : State) (f : State → State) :
    (s.phase = .idle ∧ gateBusy s f = f s) ∨ (s.phase = .busy ∧ gateBusy s f = s.raiseErrBusy) := by
  cases h : s.phase
  · exact .inl ⟨rfl, gateBusy_idle h f⟩
  · exact .inr ⟨rfl, gateBusy_busy h f⟩

/-- What a write behind both gates can do. -/
theorem gateConfig_cases (s : State) (f : State → State) :
    (s.phase = .idle ∧ s.cfgLocked = false ∧ gateConfig s f = f s) ∨
    (s.phase = .idle ∧ s.cfgLocked = true ∧ gateConfig s f = s.raiseErrLocked) ∨
    (s.phase = .busy ∧ gateConfig s f = s.raiseErrBusy) := by
  rcases gateBusy_cases s (fun t => gateLock t f) with ⟨h, e⟩ | ⟨h, e⟩
  · cases hl : s.cfgLocked
    · exact .inl ⟨h, rfl, by rw [gateConfig, e]; simp [gateLock, hl]⟩
    · exact .inr (.inl ⟨h, rfl, by rw [gateConfig, e]; simp [gateLock, hl]⟩)
  · exact .inr (.inr ⟨h, e⟩)

/-! ## The register map (10_state.md R33) -/

theorem accessOk_iff (a n : Nat) : accessOk a n = true ↔ n = 4 ∧ a % 4 = 0 ∧ a ≤ 0xFFC := by
  simp [accessOk, and_assoc]

@[simp] theorem regAt_regOffset (r : Reg) : regAt (regOffset r) = some r := by
  cases r with
  | key j => fin_cases j <;> decide
  | frame w => fin_cases w <;> decide
  | _ => decide

/-- The register at an offset has that offset. -/
theorem regOffset_of_regAt {a : Nat} {r : Reg} (h : regAt a = some r) : regOffset r = a := by
  unfold regAt at h
  split at h
  · next r' hf => cases h; simpa using List.find?_some hf
  · unfold frameRegAt at h
    split at h
    · next hc =>
      simp only [Option.some.injEq] at h
      subst h
      simp only [regOffset, Config.frameWindow, Fin.ofNat] at hc ⊢
      omega
    · simp at h

@[simp] theorem accessOk_regOffset (r : Reg) : accessOk (regOffset r) 4 = true := by
  cases r with
  | key j => fin_cases j <;> decide
  | frame w => fin_cases w <;> decide
  | _ => decide

/-- A write of a register at its own offset. -/
@[simp] theorem hostWrite_reg (r : Reg) (v : Word) (s : State) :
    hostWrite (regOffset r) 4 v s = writeReg r v (s.respond .writeDone) := by
  simp [hostWrite, writeOffset]

/-- A read of a register at its own offset. -/
@[simp] theorem hostRead_reg (r : Reg) (s : State) :
    hostRead (regOffset r) 4 s = s.respond (.readData (s.readReg r)) := by
  simp [hostRead, State.readOffset]

/-! ## The engine and the step -/

/-- What the engine's turn can do (40_commands.md R152). -/
theorem runEngine_cases (s : State) :
    (s.phase = .idle ∧ s.runEngine = s) ∨ (s.phase = .busy ∧ s.runEngine = s.completeDecode) := by
  cases h : s.phase <;> simp [State.runEngine, h]

theorem step_nil {s : State} (h : s.inputs = []) : step s = .next (s.consume []).runEngine := by
  simp [step, h, runQuiet]

theorem step_cons {s : State} {x : Input} {rest : List Input} (h : s.inputs = x :: rest) :
    step s = runInput x (s.consume rest) := by simp [step, h]

/-- What a command can do: its own effect in IDLE, ERR_BUSY in BUSY (20_memory.md R78). -/
theorem exec_cases {i : Instr} {s t : State} (h : exec i s = .next t) :
    (s.phase = .busy ∧ t = s.raiseErrBusy) ∨
    (s.phase = .idle ∧
      ((i = .nop ∧ t = cmdNop s) ∨ (i = .arm ∧ t = cmdArm s) ∨
       (i = .decode ∧ t = cmdDecodeStart s) ∨ (i = .lockCfg ∧ t = cmdLockCfg s))) := by
  cases i <;> simp only [exec, execNop, execArm, execDecode, execLockCfg, Host.Outcome.next.injEq] at h <;>
    subst h
  · rcases gateBusy_cases s cmdNop with ⟨hp, e⟩ | ⟨hp, e⟩ <;> simp [hp, e]
  · rcases gateBusy_cases s cmdArm with ⟨hp, e⟩ | ⟨hp, e⟩ <;> simp [hp, e]
  · rcases gateBusy_cases s cmdDecodeStart with ⟨hp, e⟩ | ⟨hp, e⟩ <;> simp [hp, e]
  · rcases gateBusy_cases s cmdLockCfg with ⟨hp, e⟩ | ⟨hp, e⟩ <;> simp [hp, e]

/-- What a write of a register can do (20_memory.md R77): it is refused in BUSY, refused while locked, or
has the register's own effect. -/
theorem writeReg_cases {r : Reg} {v : Word} {s t : State} (h : writeReg r v s = .next t) :
    t = s ∨ t = s.writeCtrl v ∨ t = s.writeStatus v ∨
    (s.phase = .busy ∧ t = s.raiseErrBusy) ∨
    (s.phase = .idle ∧ s.cfgLocked = true ∧ t = s.raiseErrLocked) ∨
    (s.phase = .idle ∧
      ((r = .cmd ∧ ((∃ i, decodeWord v = .ok i ∧ exec i s = .next t) ∨
          (∃ e, decodeWord v = .error e ∧ t = s.raiseErrCmd))) ∨
       (r = .length ∧ t = s.setLength v) ∨
       (r = .identity ∧ s.cfgLocked = false ∧ t = s.setIdentity v) ∨
       (∃ j, r = .key j ∧ s.cfgLocked = false ∧ t = s.setKey j v) ∨
       (∃ w, r = .frame w ∧ t = s.setFrameWord w v))) := by
  cases r <;> simp only [writeReg, Host.Outcome.next.injEq] at h
  case ctrl => exact .inr (.inl h.symm)
  case status => exact .inr (.inr (.inl h.symm))
  case cmd =>
    unfold writeCmd at h
    split at h
    · next i hd =>
      rcases exec_cases h with ⟨hp, e⟩ | ⟨hp, -⟩
      · simp [hp, e]
      · have : (∃ i, decodeWord v = .ok i ∧ exec i s = .next t) := ⟨i, hd, h⟩
        simp [hp, this]
    · next e hd =>
      simp only [Host.Outcome.next.injEq] at h
      subst h
      rcases gateBusy_cases s State.raiseErrCmd with ⟨hp, e⟩ | ⟨hp, e⟩ <;> simp [hp, e, hd]
  case length =>
    subst h
    rcases gateBusy_cases s (fun t => t.setLength v) with ⟨hp, e⟩ | ⟨hp, e⟩ <;> simp [hp, e]
  case identity =>
    subst h
    rcases gateConfig_cases s (fun t => t.setIdentity v) with ⟨hp, hl, e⟩ | ⟨hp, hl, e⟩ | ⟨hp, e⟩ <;>
      simp [*]
  case key j =>
    subst h
    rcases gateConfig_cases s (fun t => t.setKey j v) with ⟨hp, hl, e⟩ | ⟨hp, hl, e⟩ | ⟨hp, e⟩ <;>
      simp [*]
  case frame w =>
    subst h
    rcases gateBusy_cases s (fun t => t.setFrameWord w v) with ⟨hp, e⟩ | ⟨hp, e⟩ <;> simp [hp, e]
  all_goals exact .inl h.symm

/-- What one step can do: every next state is one of these (20_memory.md R87). `c` is the state after the
input at the head was taken off. -/
theorem step_cases {s t : State} (h : step s = .next t) :
    ∃ c, ((s.inputs = [] ∧ c = s.consume []) ∨ (∃ x, s.inputs = x :: c.inputs ∧ c = s.consume c.inputs)) ∧
    ((t = c.runEngine ∧ (s.inputs = [] ∨ s.inputs = .engineTurn :: c.inputs)) ∨
     (t = c.resetBlock ∧ s.inputs = .assertReset :: c.inputs) ∨
     (∃ a n, s.inputs = .hostRead a n :: c.inputs ∧ t = hostRead a n c) ∨
     (∃ a n v, s.inputs = .hostWrite a n v :: c.inputs ∧
       ((accessOk a n = false ∧ t = (c.recordBusError a n).respond .writeBusError) ∨
        (accessOk a n = true ∧ regAt a = none ∧ t = c.respond .writeDone) ∨
        (accessOk a n = true ∧ ∃ r, regAt a = some r ∧ writeReg r v (c.respond .writeDone) = .next t)))) := by
  cases hi : s.inputs with
  | nil =>
    rw [step_nil hi] at h
    refine ⟨s.consume [], .inl ⟨rfl, rfl⟩, .inl ⟨?_, .inl rfl⟩⟩
    simpa using h.symm
  | cons x rest =>
    rw [step_cons hi] at h
    refine ⟨s.consume rest, .inr ⟨x, rfl, rfl⟩, ?_⟩
    cases x with
    | hostRead a n => exact .inr (.inr (.inl ⟨a, n, rfl, by simpa [runInput] using h.symm⟩))
    | hostWrite a n v =>
      refine .inr (.inr (.inr ⟨a, n, v, rfl, ?_⟩))
      simp only [runInput, hostWrite] at h
      split at h
      · next hok =>
        unfold writeOffset at h
        split at h
        · next r hr => exact .inr (.inr ⟨hok, r, hr, h⟩)
        · next hr => exact .inr (.inl ⟨hok, hr, by simpa using h.symm⟩)
      · next hok => exact .inl ⟨by simpa using hok, by simpa using h.symm⟩
    | engineTurn => exact .inl ⟨by simpa [runInput] using h.symm, .inr rfl⟩
    | assertReset => exact .inr (.inl ⟨by simpa [runInput] using h.symm, rfl⟩)

end Sys2Proof.Machine
end

