-- ==== Sys2Proof/Laws/Pipeline.lean ====
section
/-! SUPPORT. What each stage of the pipeline can answer, said once (40_commands.md R150). -/

namespace Sys2Proof.Machine

/-- When the configuration check passes (R151). -/
theorem checkConfig_cases (locked : Bool) :
    (locked = true ∧ checkConfig locked = .ok ()) ∨
    (locked = false ∧ checkConfig locked = .error .notConfigured) := by
  cases locked <;> simp [checkConfig]

/-- The Validator's comparison is the conjunction of the four equalities (41_validator.md R173). -/
theorem identityMatches_iff (identity frame : Nat → Byte) :
    identityMatches identity frame = true ↔
      frame 6 = identity 0 ∧ frame 5 = identity 1 ∧ frame 4 = identity 2 ∧ frame 3 = identity 3 := by
  simp [identityMatches, Config.idBytes, Config.idOffset, List.range_succ]

/-- What the Validator can answer (R171). -/
theorem validate_cases (identity frame : Nat → Byte) (length : Byte) :
    (7 ≤ length.toNat ∧ identityMatches identity frame = true ∧ validate identity frame length = .ok ()) ∨
    ((length.toNat < 7 ∨ identityMatches identity frame = false) ∧
      validate identity frame length = .error .identityMismatch) := by
  unfold validate Config.idOffset Config.idBytes
  by_cases h : length.toNat < 7
  · simp [h]
  · cases hm : identityMatches identity frame
    · simp [h]
    · simp [h, Nat.not_lt.mp h]

/-- What the Integrity Checker can answer (44_integrity.md R234). -/
theorem checkIntegrity_cases (p : List Byte) (c : Nat) :
    (crc16 (crcRegion p c) = crcRead p ∧ checkIntegrity p c = .ok ()) ∨
    (crc16 (crcRegion p c) ≠ crcRead p ∧ checkIntegrity p c = .error .checksumMismatch) := by
  unfold checkIntegrity
  by_cases h : crc16 (crcRegion p c) = crcRead p <;> simp [h]

/-- What the Field Extractor can answer (45_extractor.md R251). -/
theorem extract_cases (p : List Byte) (c : Nat) :
    (c < 3 ∧ extract p c = .error .shortRecord) ∨
    (3 ≤ c ∧ layoutOf (byteAt p 2) = none ∧ extract p c = .error .unknownLayout) ∨
    (∃ lay, 3 ≤ c ∧ layoutOf (byteAt p 2) = some lay ∧ c < lay.need ∧ extract p c = .error .shortRecord) ∨
    (∃ lay, 3 ≤ c ∧ layoutOf (byteAt p 2) = some lay ∧ lay.need ≤ c ∧ extract p c = .ok (readFields p lay)) := by
  unfold extract Config.markerOffset
  by_cases h : c < 3
  · simp [h]
  · cases hl : layoutOf (byteAt p 2) with
    | none => simp [h]; omega
    | some lay => by_cases hn : c < lay.need <;> simp [h, hn] <;> omega

/-- The pipeline answers OK with the reading of its stages, or the rejecting stage's code with the zero
reading (R150, R153). -/
theorem decodePipeline_cases (locked : Bool) (key : Block) (identity frame : Nat → Byte) (length : Byte) :
    (∃ rd, pipelineStages locked key identity frame length = .ok rd ∧
      decodePipeline locked key identity frame length = (.ok, rd)) ∨
    (∃ code, pipelineStages locked key identity frame length = .error code ∧
      decodePipeline locked key identity frame length = (code, zeroReading)) := by
  unfold decodePipeline
  cases h : pipelineStages locked key identity frame length with
  | ok rd => exact .inl ⟨rd, rfl, rfl⟩
  | error code => exact .inr ⟨code, rfl, rfl⟩

/-- A stage that passes hands on to the next; a stage that rejects ends the pipeline (R150). -/
theorem except_bind_ok {α β : Type} (a : α) (f : α → Except ResultCode β) :
    ((.ok a : Except ResultCode α) >>= f) = f a := rfl

theorem except_bind_error {α β : Type} (e : ResultCode) (f : α → Except ResultCode β) :
    ((.error e : Except ResultCode α) >>= f) = .error e := rfl

end Sys2Proof.Machine
end

