-- ==== Sys2Proof/Laws/Run.lean ====
section
/-! SUPPORT. Runs of the machine, step by step. -/

namespace Sys2Proof.Machine

@[simp] theorem run_zero (s : State) : s.run 0 = .next s := rfl

/-- A run of `n + 1` steps is a step and a run of `n`. -/
theorem run_succ (s : State) (n : Nat) :
    s.run (n + 1) =
      match step s with
      | .next t => t.run n
      | .fault r => .fault r
      | .refused r => .refused r := rfl

theorem run_succ_of_next {s t : State} (n : Nat) (h : step s = .next t) : s.run (n + 1) = t.run n := by
  rw [run_succ, h]

end Sys2Proof.Machine
end

