-- ==== Sys2Proof/Laws/Script.lean ====
section
/-! SUPPORT. What one input, a schedule and the loop of `wait` do (30_encoding.md R107): later proofs cite these and
do not unfold the port. -/

namespace Sys2Proof.Machine

/-! ## The inputs still to come play no part in what an input does -/

theorem gateBusy_withInputs (s : State) (f : State → State) (xs : List Input)
    (hf : f { s with inputs := xs } = { f s with inputs := xs }) :
    gateBusy { s with inputs := xs } f = { gateBusy s f with inputs := xs } := by
  rcases gateBusy_cases s f with ⟨h, e⟩ | ⟨h, e⟩ <;> rw [e]
  · rw [gateBusy_idle (by exact h), hf]
  · rw [gateBusy_busy (by exact h)]; rfl

theorem gateLock_withInputs (s : State) (f : State → State) (xs : List Input)
    (hf : f { s with inputs := xs } = { f s with inputs := xs }) :
    gateLock { s with inputs := xs } f = { gateLock s f with inputs := xs } := by
  unfold gateLock
  dsimp only
  split
  · rfl
  · exact hf

theorem setFrameByte_withInputs (s : State) (i : Nat) (v : Byte) (xs : List Input) :
    State.setFrameByte { s with inputs := xs } i v = { s.setFrameByte i v with inputs := xs } := by
  unfold State.setFrameByte
  split <;> rfl

theorem setFrameWord_withInputs (s : State) (w : Fin 32) (v : Word) (xs : List Input) :
    State.setFrameWord { s with inputs := xs } w v = { s.setFrameWord w v with inputs := xs } := by
  simp only [State.setFrameWord, setFrameByte_withInputs]

theorem writeReg_withInputs (r : Reg) (v : Word) (s : State) (xs : List Input) :
    ∃ t, writeReg r v s = .next t ∧ writeReg r v { s with inputs := xs } = .next { t with inputs := xs } := by
  cases r <;> simp only [writeReg, gateConfig]
  case cmd =>
    unfold writeCmd
    split
    · next i _ =>
      cases i <;> simp only [exec, execNop, execArm, execDecode, execLockCfg] <;>
        exact ⟨_, rfl, by rw [gateBusy_withInputs _ _ _ rfl]⟩
    · exact ⟨_, rfl, by rw [gateBusy_withInputs _ _ _ rfl]⟩
  case status =>
    refine ⟨_, rfl, ?_⟩
    unfold State.writeStatus
    split <;> rfl
  case length => exact ⟨_, rfl, by rw [gateBusy_withInputs _ _ _ rfl]⟩
  case identity =>
    exact ⟨_, rfl, by rw [gateBusy_withInputs _ _ _ (gateLock_withInputs _ _ _ rfl)]⟩
  case key j =>
    refine ⟨_, rfl, ?_⟩
    rw [gateBusy_withInputs _ _ _ (gateLock_withInputs _ _ _ (by fin_cases j <;> rfl))]
  case frame w =>
    exact ⟨_, rfl, by rw [gateBusy_withInputs _ _ _ (setFrameWord_withInputs _ w v xs)]⟩
  all_goals exact ⟨_, rfl, rfl⟩

/-- What an input does, with any inputs to come. -/
theorem runInput_withInputs (x : Input) (s : State) (xs : List Input) :
    ∃ t, runInput x s = .next t ∧ runInput x { s with inputs := xs } = .next { t with inputs := xs } := by
  cases x with
  | hostRead a n =>
    refine ⟨_, rfl, ?_⟩
    simp only [runInput, hostRead]
    split <;> rfl
  | hostWrite a n v =>
    simp only [runInput, hostWrite]
    split
    · unfold writeOffset
      split
      · exact writeReg_withInputs _ v (s.respond .writeDone) xs
      · exact ⟨_, rfl, rfl⟩
    · exact ⟨_, rfl, rfl⟩
  | engineTurn =>
    refine ⟨_, rfl, ?_⟩
    simp only [runInput, State.runEngine]
    split <;> rfl
  | assertReset => exact ⟨_, rfl, rfl⟩

/-! ## Steps and runs over inputs -/

/-- A step is `afterInput` of the oldest input, with the others still to come. -/
theorem step_afterInput {s : State} {x : Input} {rest : List Input} (h : s.inputs = x :: rest) :
    step s = .next { s.afterInput x with inputs := rest } := by
  obtain ⟨t, h1, h2⟩ := runInput_withInputs x (s.consume []) rest
  have e : s.afterInput x = t := by unfold State.afterInput; rw [h1]
  rw [step_cons h, e]
  exact h2

/-- The block after an input does not depend on the inputs still to come. -/
theorem afterInput_withInputs (s : State) (x : Input) (xs : List Input) :
    State.afterInput { s with inputs := xs } x = s.afterInput x := rfl

/-- A run over all the inputs is `afterInput` of each in turn. -/
theorem run_inputs (l : List Input) (s : State) :
    State.run l.length { s with inputs := l } = .next { l.foldl State.afterInput s with inputs := [] } := by
  induction l generalizing s with
  | nil => rfl
  | cons x rest ih =>
    rw [List.length_cons, run_succ_of_next _ (step_afterInput (rest := rest) rfl), afterInput_withInputs, ih]
    rfl

/-! ## The engine's turn and the loop of `wait` -/

@[simp] theorem afterInput_engineTurn_phase (s : State) : (s.afterInput .engineTurn).phase = .idle := by
  unfold State.afterInput
  simp only [runInput]
  rcases runEngine_cases (s.consume []) with ⟨h, e⟩ | ⟨h, e⟩ <;> rw [e]
  · exact h
  · rfl

@[simp] theorem afterInput_hostRead_phase (s : State) (a n : Nat) :
    (s.afterInput (.hostRead a n)).phase = s.phase := by
  unfold State.afterInput
  simp only [runInput, hostRead]
  split <;> rfl

/-- The loop of `wait` goes on exactly while the poll finds BUSY. -/
theorem goesOnPolling_pollBusy (s : State) :
    goesOnPolling .pollBusy (s.afterInput (stepInput .pollBusy)).answer = s.busy := by
  have e : (s.afterInput (stepInput .pollBusy)).answer = .readData s.statusWord :=
    congrArg State.answer (hostRead_reg .status (s.consume []))
  rw [e]
  show s.statusWord.getLsbD 0 = s.busy
  unfold State.statusWord flagWord
  generalize s.busy = b
  cases b <;> simp

/-- No other step of a host program is taken twice. -/
theorem goesOnPolling_other (h : HostStep) (a : Answer) (hne : h ≠ .pollBusy) : goesOnPolling h a = false := by
  cases h <;> simp_all [goesOnPolling]

/-! ## An idle block under a schedule -/

/-- Two states of one block: they differ at most in the inputs to come and in the port's last answer. -/
def SameBlock (a b : State) : Prop :=
  { a with inputs := ([] : List Input), answer := .quiet } = { b with inputs := ([] : List Input), answer := .quiet }

theorem SameBlock.trans {a b c : State} (h : SameBlock a b) (h' : SameBlock b c) : SameBlock a c := Eq.trans h h'

theorem SameBlock.phase {a b : State} (h : SameBlock a b) : a.phase = b.phase := by
  have e : (a.consume []).phase = (b.consume []).phase := congrArg State.phase (show a.consume [] = b.consume [] from h)
  exact e

/-- An input does the same to both. -/
theorem SameBlock.afterInput {a b : State} (h : SameBlock a b) (x : Input) : a.afterInput x = b.afterInput x := by
  have e : a.consume [] = b.consume [] := h
  unfold State.afterInput
  rw [e]

theorem SameBlock.foldl {a b : State} (h : SameBlock a b) (l : List Input) :
    SameBlock (l.foldl State.afterInput a) (l.foldl State.afterInput b) := by
  cases l with
  | nil => exact h
  | cons x rest =>
    simp only [List.foldl_cons, h.afterInput x]
    rfl

/-- In IDLE the engine's turn changes nothing of the block. -/
theorem afterInput_engineTurn_of_idle {s : State} (h : s.phase = .idle) :
    SameBlock (s.afterInput .engineTurn) s := by
  unfold State.afterInput
  simp only [runInput]
  rcases runEngine_cases (s.consume []) with ⟨-, e⟩ | ⟨hb, -⟩
  · rw [e]; rfl
  · exact absurd (h.symm.trans hb) (by decide)

/-- A program with no loop that keeps an idle block idle has the same effect in every schedule: that of its
transactions in program order. -/
theorem foldl_scheduledInputs_of_idle (program : List HostStep)
    (hp : ∀ h, h ∈ program → h ≠ .pollBusy ∧
      ∀ s : State, s.phase = .idle → (s.afterInput (stepInput h)).phase = .idle)
    (movers : List Mover) (s : State) (hs : s.phase = .idle) :
    SameBlock ((scheduledInputs s program movers).foldl State.afterInput s)
      ((program.map stepInput).foldl State.afterInput s) := by
  induction movers generalizing program s with
  | nil =>
    induction program generalizing s with
    | nil => rfl
    | cons h rest ih =>
      simp only [scheduledInputs, List.flatMap_cons, List.foldl_append, List.foldl_cons, List.foldl_nil,
        List.map_cons] at *
      rw [(afterInput_engineTurn_of_idle hs).afterInput]
      exact ih (fun k hk => hp k (by simp [hk])) _ ((hp h (by simp)).2 s hs)
  | cons m ms ih =>
    cases m with
    | engine =>
      exact (ih program hp _ (afterInput_engineTurn_phase s)).trans
        ((afterInput_engineTurn_of_idle hs).foldl _)
    | host =>
      cases program with
      | nil => exact ih [] hp s hs
      | cons h rest =>
        simp only [scheduledInputs, goesOnPolling_other _ _ (hp h (by simp)).1]
        exact ih rest (fun k hk => hp k (by simp [hk])) _ ((hp h (by simp)).2 s hs)

/-- What is left of a schedule when the host's program is over keeps an idle block idle. -/
theorem foldl_scheduledInputs_nil_phase (movers : List Mover) (s : State) (h : s.phase = .idle) :
    ((scheduledInputs s [] movers).foldl State.afterInput s).phase = .idle :=
  (foldl_scheduledInputs_of_idle [] (by simp) movers s h).phase.trans h

/-- `wait` ends in every schedule, with the block IDLE (R107; 70_reset_and_hazards.md R322). -/
theorem wait_ends_idle (movers : List Mover) (s : State) :
    ∃ t, (s.withScript [.wait] movers).run (s.withScript [.wait] movers).inputs.length = .next t ∧
      t.inputs = [] ∧ t.phase = .idle := by
  refine ⟨_, run_inputs _ s, rfl, ?_⟩
  show ((scheduledInputs s [.pollBusy] movers).foldl State.afterInput s).phase = .idle
  induction movers generalizing s with
  | nil => simp [scheduledInputs, stepInput]
  | cons m rest ih =>
    cases m with
    | engine => exact ih _
    | host =>
      simp only [scheduledInputs, List.foldl_cons, goesOnPolling_pollBusy]
      split
      · exact ih _
      · next hb =>
        refine foldl_scheduledInputs_nil_phase _ _ ?_
        rw [show stepInput .pollBusy = .hostRead (regOffset .status) 4 from rfl, afterInput_hostRead_phase]
        cases hp : s.phase
        · rfl
        · exact absurd (by simp [State.busy, hp]) hb

end Sys2Proof.Machine
end

