-- ==== Sys2Proof/Tests/Slice0.lean ====
section
/-! SUPPORT. Tests of the model against the spec's own words and vectors (95_test_vectors.md, whose number
each test names), and for every statement with hypotheses a witness that meets them. -/

namespace Sys2Proof.Tests.Slice0

open Sys2Proof Sys2Proof.Machine

/-! ## Helpers -/

/-- A field of the next state, if there is one. -/
def after {α : Type} (o : Host.Outcome State Fault Refusal) (f : State → α) : Option α :=
  match o with
  | .next t => some (f t)
  | _ => none

/-- The cells of a frame buffer whose first bytes are given. -/
def frameOf (bytes : List Byte) : Memory := bytes.zipIdx.map (fun p => (p.2, p.1))

/-- A block from its first 16 bytes. -/
def blockOf (bytes : List Byte) : Block := Block.load (byteAt bytes)

/-- KEY of 95_test_vectors.md section 2. -/
def keyBytes : List Byte :=
  [0x4E, 0x5F, 0x6A, 0x7B, 0x8C, 0x9D, 0xAE, 0xBF, 0xC0, 0xD1, 0xE2, 0xF3, 0x04, 0x15, 0x26, 0x37]

/-- Header H1 of section 2. -/
def h1 : List Byte :=
  [0x44, 0x2D, 0x2C, 0x78, 0x56, 0x34, 0x12, 0x1B, 0x16, 0x8D, 0x20, 0x2A, 0x01, 0x02, 0x03, 0x04]

/-- The ciphertext of telegram T1 (V-E1). -/
def ct1 : List Byte :=
  [0xCB, 0xE1, 0x9F, 0x25, 0x22, 0xAD, 0xB4, 0x1B, 0xA3, 0x35, 0x0D, 0xDC, 0x3B, 0x53, 0x14, 0xB1,
   0x0B, 0x7C, 0xA0]

/-- Telegram T1 (V-E1). -/
def t1 : List Byte := h1 ++ ct1 ++ [0xAB, 0xCD]

/-- The plaintext of T1 (V-E1). -/
def p1 : List Byte :=
  [0x18, 0xC6, 0x79, 0x5A, 0x6B, 0x7C, 0x8D, 0x00, 0x00, 0x40, 0xE2, 0x01, 0x00, 0xA0, 0x86, 0x01,
   0x00, 0x12, 0x15]

/-- Telegram T2 (V-E2). -/
def t2 : List Byte :=
  [0x44, 0x2D, 0x2C, 0x78, 0x56, 0x34, 0x12, 0x1B, 0x16, 0x8D, 0x21, 0x2A, 0x05, 0x06, 0x07, 0x08,
   0x7E, 0x74, 0x6C, 0x14, 0xAD, 0xC9, 0x1B, 0xBB, 0x68, 0xD2, 0xEE, 0x1E, 0x5F, 0x1B, 0x24, 0xF7,
   0x85, 0x56, 0x7B, 0x53, 0x44, 0x1B, 0x29, 0x4E, 0x0F, 0xBE, 0xAB, 0xCD]

/-- Telegram Tu, with the unknown marker 0x7A (V-E8). -/
def tu : List Byte :=
  h1 ++ [0x67, 0x44, 0x9C, 0x25, 0x22, 0xAD, 0xB4, 0x1B, 0xA3, 0x35, 0x0D, 0xDC, 0x3B, 0x53, 0x14,
    0xB1, 0x0B, 0x7C, 0xA0, 0xAB, 0xCD]

/-- Telegram Tn, with the field extremes (V-E14). -/
def tn : List Byte :=
  h1 ++ [0x80, 0xE8, 0x9F, 0x7F, 0x49, 0xD1, 0x39, 0x1A, 0x23, 0x8A, 0x10, 0x22, 0xC4, 0xF3, 0x92,
    0xB0, 0x0B, 0xEE, 0x4A, 0xAB, 0xCD]

/-- An idle, locked block with the fixture's configuration. -/
def lockedIdle : State :=
  { State.reset with
    cfgLocked := true, identity := 0x12345678
    key0 := 0x7B6A5F4E, key1 := 0xBFAE9D8C, key2 := 0xF3E2D1C0, key3 := 0x37261504 }

/-- The same block in BUSY. -/
def lockedBusy : State := { lockedIdle with phase := .busy }

/-- A block decoding a telegram. -/
def decoding (bytes : List Byte) : State :=
  { lockedBusy with frame := frameOf bytes, length := BitVec.ofNat 8 bytes.length }

/-- The same block with these cells of the frame buffer and this LENGTH. -/
def holding (cells : Memory) (length : Byte) : State := { lockedBusy with frame := cells, length := length }

/-- The block after V-E1: STATUS 0x0000001E. -/
def afterE1 : State :=
  { lockedIdle with
    done := true, valid := true, result := .ok
    volume := 0x0001E240, target := 0x000186A0, temp := 0x1512
    length := 0x25, frame := frameOf t1 }

/-- The block of V-K17 to V-K19: STATUS 0x0000071E. -/
def allErrors : State := { afterE1 with errCmd := true, errBusy := true, errLocked := true }

/-- A block with the given inputs to come. -/
def feed (s : State) (xs : List Input) : State := { s with inputs := xs }

/-- The outcome of a decode of these bytes with the fixture's configuration. -/
def outcomeOf (bytes : List Byte) : ResultCode × Reading :=
  decodePipeline true (blockOf keyBytes) (identityByte 0x12345678) (byteAt bytes) (BitVec.ofNat 8 bytes.length)

/-! ## Well-formedness: one ill-formed term for each check -/

/-- R107: `ldkey` takes 16 bytes; 15 are refused, and so are 17. -/
theorem test_ldkey_length :
    Stmt.wellFormed (.ldkey (keyBytes.take 15)) = false ∧
    Stmt.wellFormed (.ldkey (0x00 :: keyBytes)) = false ∧ Stmt.wellFormed (.ldkey keyBytes) = true := by decide

/-- R107 gives `ldframe` no greatest number of bytes: 128 fill FRAME0-FRAME31, and 129 write on at 0x180, the
offset that R106's formula gives FRAME32 (log entry 17). -/
theorem test_ldframe_long :
    ((Stmt.steps (.ldframe (List.replicate 128 0xEE))).map stepInput).drop 31 =
      [.hostWrite 0x17C 4 0xEEEEEEEE, .hostWrite 0x00C 4 0x00000080] ∧
    ((Stmt.steps (.ldframe (List.replicate 129 0xEE))).map stepInput).drop 32 =
      [.hostWrite 0x180 4 0x000000EE, .hostWrite 0x00C 4 0x00000081] ∧
    Stmt.wellFormed (.ldframe (List.replicate 129 0xEE)) = true := by decide +kernel

/-- R103: every command is well formed. -/
theorem test_commands_well_formed :
    Instr.nop.wellFormed ∧ Instr.arm.wellFormed ∧ Instr.decode.wellFormed ∧ Instr.lockCfg.wellFormed := by decide

/-! ## Decoding: words written out from R100 and R102 -/

/-- NOP: OPCODE 0x00, MBZ 0. -/
theorem test_decode_nop : decodeWord 0b00000000000000000000000000000000 = .ok .nop := by decide

/-- ARM: OPCODE 0x01, MBZ 0. -/
theorem test_decode_arm : decodeWord 0b00000000000000000000000000000001 = .ok .arm := by decide

/-- DECODE: OPCODE 0x02, MBZ 0. -/
theorem test_decode_decode : decodeWord 0b00000000000000000000000000000010 = .ok .decode := by decide

/-- LOCK_CFG: OPCODE 0x03, MBZ 0. -/
theorem test_decode_lockCfg : decodeWord 0b00000000000000000000000000000011 = .ok .lockCfg := by decide

/-- R104, V-K8 to V-K10, PR3: reserved words, by name. -/
theorem test_decode_reserved :
    decodeWord 0x00000004 = .error .opcodeReserved ∧ decodeWord 0x000000FF = .error .opcodeReserved ∧
    decodeWord 0x00000100 = .error .mbzNotZero ∧ decodeWord 0x00000102 = .error .mbzNotZero ∧
    decodeWord 0x80000000 = .error .mbzNotZero := by decide

/-- R80: the least significant byte of a command word comes first, and three bytes are no command word. -/
theorem test_decode_bytes :
    decodeBytes [0x02, 0x00, 0x00, 0x00, 0xEE] = .ok (.decode, [0xEE]) ∧
    decodeBytes [0x02, 0x00, 0x00] = .error .truncated := by decide

/-! ## One step of each command -/

/-- V-K11. -/
theorem test_nop_keeps_status :
    after (step (feed afterE1 [.hostWrite 0x008 4 0x00000000])) State.statusWord = some 0x0000001E := by decide

/-- V-K12. -/
theorem test_arm_clears :
    after (step (feed afterE1 [.hostWrite 0x008 4 0x00000001]))
      (fun t => [t.statusWord, t.volume, t.target, t.readReg .info, t.readReg .temp, t.readReg .length,
        t.readReg (.frame 4), t.readReg (.frame 31)]) = some [0x00000008, 0, 0, 0, 0, 0, 0, 0] := by decide +kernel

/-- V-K13: DECODE starts; LENGTH is not cleared. -/
theorem test_decode_starts :
    after (step (feed afterE1 [.hostWrite 0x008 4 0x00000002])) (fun t => (t.statusWord, t.phase, t.length)) =
      some (0x00000009, .busy, 0x25) := by decide

/-- V-K14: DECODE in BUSY. -/
theorem test_decode_busy :
    after (step (feed (decoding t1) [.hostWrite 0x008 4 0x00000002])) (fun t => (t.statusWord, t.phase)) =
      some (0x00000209, .busy) := by decide

/-- V-K5, V-K7. -/
theorem test_lockCfg_sets_and_keeps :
    after (step (feed State.reset [.hostWrite 0x008 4 0x00000003])) State.statusWord = some 0x00000008 ∧
    after (step (feed lockedIdle [.hostWrite 0x008 4 0x00000003])) State.statusWord = some 0x00000008 := by decide

/-- V-K8, V-K9, V-K15: reserved words in IDLE and in BUSY. -/
theorem test_reserved_word :
    after (step (feed State.reset [.hostWrite 0x008 4 0x00000004])) State.statusWord = some 0x00000100 ∧
    after (step (feed State.reset [.hostWrite 0x008 4 0x00000100])) State.statusWord = some 0x00000100 ∧
    after (step (feed lockedBusy [.hostWrite 0x008 4 0x00000004])) State.statusWord = some 0x00000209 := by decide

/-- V-K26: the completion of the decode of T1. -/
theorem test_completion :
    after (step (feed (decoding t1) [.engineTurn]))
      (fun t => [t.statusWord, t.volume, t.target, t.readReg .info, t.readReg .temp]) =
      some [0x0000001E, 0x0001E240, 0x000186A0, 0x00000000, 0x00001512] := by decide +kernel

/-- V-K25: reset in BUSY. -/
theorem test_reset_in_busy :
    after (step (feed (decoding t1) [.assertReset])) (fun t => (t.statusWord, t.cfgLocked, t.key0, t.phase)) =
      some (0x00000000, false, 0, .idle) := by decide

/-! ## One step of the port -/

/-- V-K2, V-K3: the bits a write of CTRL and LENGTH keeps. -/
theorem test_write_masks :
    after (step (feed State.reset [.hostWrite 0x000 4 0xFFFFFFFF])) (fun t => t.readReg .ctrl) = some 0x00000001 ∧
    after (step (feed State.reset [.hostWrite 0x00C 4 0x000001FF])) (fun t => t.readReg .length) =
      some 0x000000FF := by decide

/-- V-K4: KEY0 is written and reads 0. -/
theorem test_key_is_write_only :
    after (step (feed State.reset [.hostWrite 0x020 4 0x11223344])) (fun t => (t.key0, t.readReg (.key 0))) =
      some (0x11223344, 0) := by decide

/-- V-K6: the lock gate. -/
theorem test_lock_gate :
    after (step (feed { State.reset with cfgLocked := true } [.hostWrite 0x010 4 0x12345678]))
      (fun t => (t.identity, t.statusWord)) = some (0, 0x00000408) := by decide

/-- V-K16: CTRL in BUSY. -/
theorem test_ctrl_in_busy :
    after (step (feed lockedBusy [.hostWrite 0x000 4 0x00000001])) (fun t => (t.readReg .ctrl, t.statusWord)) =
      some (0x00000001, 0x00000009) := by decide

/-- V-K17, V-K18, V-K19: the W1C bits. -/
theorem test_status_w1c :
    after (step (feed allErrors [.hostWrite 0x004 4 0x00000004])) State.statusWord = some 0x0000071E ∧
    after (step (feed allErrors [.hostWrite 0x004 4 0xFFFFFFFF])) State.statusWord = some 0x0000001C ∧
    after (step (feed allErrors [.hostWrite 0x004 4 0x00000200])) State.statusWord = some 0x0000051E := by decide

/-- V-K20, V-K21: `irq` before and after the acknowledgement, and with IRQ_EN 0. -/
theorem test_irq :
    State.irq { afterE1 with irqEn := true } = true ∧ State.irq afterE1 = false ∧
    after (step (feed { afterE1 with irqEn := true } [.hostWrite 0x004 4 0x00000002])) State.irq = some false := by
  decide

/-- V-K22: the last frame word. -/
theorem test_frame_word_31 :
    after (step (feed State.reset [.hostWrite 0x17C 4 0xAABBCCDD]))
      (fun t => (t.readReg (.frame 31), t.frameByte 124, t.frameByte 125, t.frameByte 126)) =
      some (0x00BBCCDD, 0xDD, 0xCC, 0xBB) := by decide +kernel

/-- V-K23, V-K24: reserved offsets and refused accesses. -/
theorem test_reserved_and_refused :
    after (step (feed lockedIdle [.hostRead 0xFFC 4])) (fun t => (t.answer, t.statusWord, t.faults)) =
      some (.readData 0, 0x00000008, []) ∧
    after (step (feed lockedIdle [.hostRead 0x001 4])) (fun t => (t.answer, t.statusWord, t.faults)) =
      some (.readBusError 0, 0x00000008, [.busError 0x001 4]) ∧
    after (step (feed lockedIdle [.hostWrite 0x004 2 0x0002])) (fun t => (t.answer, t.statusWord, t.faults)) =
      some (.writeBusError, 0x00000008, [.busError 0x004 2]) := by decide

/-! ## The stages (95_test_vectors.md sections 3-7) -/

/-- V-A1 (FIPS-197 C.1). -/
theorem test_aes_c1 :
    Block.toList (aesEncrypt128
      (blockOf [0x00, 0x01, 0x02, 0x03, 0x04, 0x05, 0x06, 0x07, 0x08, 0x09, 0x0A, 0x0B, 0x0C, 0x0D, 0x0E, 0x0F])
      (blockOf [0x00, 0x11, 0x22, 0x33, 0x44, 0x55, 0x66, 0x77, 0x88, 0x99, 0xAA, 0xBB, 0xCC, 0xDD, 0xEE, 0xFF])) =
      [0x69, 0xC4, 0xE0, 0xD8, 0x6A, 0x7B, 0x04, 0x30, 0xD8, 0xCD, 0xB7, 0x80, 0x70, 0xB4, 0xC5, 0x5A] := by
  decide +kernel

/-- The key of V-A2. -/
def keyA2 : Block :=
  blockOf [0x2B, 0x7E, 0x15, 0x16, 0x28, 0xAE, 0xD2, 0xA6, 0xAB, 0xF7, 0x15, 0x88, 0x09, 0xCF, 0x4F, 0x3C]

/-- V-A2 (FIPS-197 B). -/
theorem test_aes_b :
    Block.toList (aesEncrypt128 keyA2
      (blockOf [0x32, 0x43, 0xF6, 0xA8, 0x88, 0x5A, 0x30, 0x8D, 0x31, 0x31, 0x98, 0xA2, 0xE0, 0x37, 0x07, 0x34])) =
      [0x39, 0x25, 0x84, 0x1D, 0x02, 0xDC, 0x09, 0xFB, 0xDC, 0x11, 0x85, 0x97, 0x19, 0x6A, 0x0B, 0x32] := by
  decide +kernel

/-- The key-expansion check values of section 3. -/
theorem test_key_schedule :
    (keySchedule keyA2).getD 4 default = ⟨0xA0, 0xFA, 0xFE, 0x17⟩ ∧
    (keySchedule keyA2).getD 43 default = ⟨0xB6, 0x63, 0x0C, 0xA6⟩ := by decide +kernel

/-- The S-box spot values of section 3. -/
theorem test_sbox : sbox 0x00 = 0x63 ∧ sbox 0x53 = 0xED ∧ sbox 0xFF = 0x16 := by decide

/-- V-A3: `inc128` carries from byte 15 into byte 14. -/
theorem test_inc128_carries :
    Block.toList (inc128
      (blockOf [0xF0, 0xF1, 0xF2, 0xF3, 0xF4, 0xF5, 0xF6, 0xF7, 0xF8, 0xF9, 0xFA, 0xFB, 0xFC, 0xFD, 0xFE, 0xFF])) =
      [0xF0, 0xF1, 0xF2, 0xF3, 0xF4, 0xF5, 0xF6, 0xF7, 0xF8, 0xF9, 0xFA, 0xFB, 0xFC, 0xFD, 0xFF, 0x00] := by
  decide +kernel

/-- V-C1, V-C3, V-C9. -/
theorem test_crc :
    crc16 [] = 0xFFFF ∧ crc16 [0x31, 0x32, 0x33, 0x34, 0x35, 0x36, 0x37, 0x38, 0x39] = 0xC2B7 ∧
    crc16 (p1.drop 2) = 0xC618 := by decide +kernel

/-- V-D1: the IV of H1; changing bytes 0, 9 and 11 does not change it. -/
theorem test_iv :
    Block.toList (buildIv (byteAt h1)) =
      [0x2D, 0x2C, 0x78, 0x56, 0x34, 0x12, 0x1B, 0x16, 0x20, 0x01, 0x02, 0x03, 0x04, 0x00, 0x00, 0x00] ∧
    buildIv (byteAt (((h1.set 0 0).set 9 0).set 11 0)) = buildIv (byteAt h1) := by decide +kernel

/-- V-D4: the ciphertext of T1 decrypts to P1, and P1 to the ciphertext. -/
theorem test_ctr_round_trip :
    ctrDecrypt (blockOf keyBytes) (buildIv (byteAt h1)) ct1 = p1 ∧
    ctrDecrypt (blockOf keyBytes) (buildIv (byteAt h1)) p1 = ct1 := by decide +kernel

/-- V-D5: the boundaries of the length check. -/
theorem test_length_check :
    checkLength 17 = .error .malformedLength ∧ checkLength 18 = .error .malformedLength ∧
    checkLength 19 = .error .malformedLength ∧ checkLength 20 = .ok 2 ∧ checkLength 127 = .ok 109 ∧
    checkLength 128 = .error .malformedLength ∧ checkLength 145 = .error .malformedLength ∧
    checkLength 255 = .error .malformedLength := by decide

/-- V-E1: the compact record. -/
theorem test_compact_record :
    outcomeOf t1 = (.ok, { volume := 123456, target := 100000, infoCode := 0x0000
                           flowTemperature := 18, ambientTemperature := 21 }) := by decide +kernel

/-- V-E2: the long record, with a negative flow temperature. -/
theorem test_long_record :
    outcomeOf t2 = (.ok, { volume := 654321, target := 600000, infoCode := 0x0102
                           flowTemperature := 0xFB, ambientTemperature := 0x07 }) ∧ s8 0xFB = -5 := by decide +kernel

/-- V-E14: the field extremes. -/
theorem test_field_extremes :
    outcomeOf tn = (.ok, { volume := 0xFFFFFFFF, target := 0, infoCode := 0x8001
                           flowTemperature := 0x80, ambientTemperature := 0xFF }) := by decide +kernel

/-- V-E3, V-E8, V-E7: a wrong checksum, an unknown marker, no configuration. -/
theorem test_rejections :
    outcomeOf (t1.set 16 0xCA) = (.checksumMismatch, zeroReading) ∧ outcomeOf tu = (.unknownLayout, zeroReading) ∧
    decodePipeline false (blockOf keyBytes) (identityByte 0x12345678) (byteAt t1) 37 =
      (.notConfigured, zeroReading) := by decide +kernel

/-- V-E9, V-E11, V-E12: records that are too short. -/
theorem test_short_records :
    outcomeOf (h1 ++ [0x2C, 0xD8, 0xAB, 0xCD]) = (.shortRecord, zeroReading) ∧
    outcomeOf (h1 ++ [0x56, 0x81, 0x9F, 0xAB, 0xCD]) = (.shortRecord, zeroReading) ∧
    outcomeOf (h1 ++ ctrDecrypt (blockOf keyBytes) (buildIv (byteAt h1))
        [0x2D, 0x16, 0x79, 0x5A, 0x6B, 0x7C, 0x8D, 0x00, 0x00, 0x40, 0xE2, 0x01, 0x00, 0xA0, 0x86, 0x01, 0x00, 0x12]
      ++ [0xAB, 0xCD]) = (.shortRecord, zeroReading) := by decide +kernel

/-- V-V2, V-V5, V-V6, V-V8: the identity. -/
theorem test_identity :
    (outcomeOf (t1.set 6 0x13)).1 = .identityMismatch ∧ (outcomeOf (t1.set 3 0x79)).1 = .identityMismatch ∧
    (outcomeOf (t1.take 6)).1 = .identityMismatch ∧
    identityMatches (identityByte 0x78563412) (byteAt t1) = false ∧
    identityMatches (identityByte 0x12345678) (byteAt t1) = true := by decide +kernel

/-- R171 at LENGTH 7 and 8 (log entry 16): the whole address field is compared. -/
theorem test_identity_at_length_7_and_8 :
    (outcomeOf (t1.take 7)).1 = .malformedLength ∧ (outcomeOf ((t1.take 7).set 6 0x13)).1 = .identityMismatch ∧
    (outcomeOf (t1.take 8)).1 = .malformedLength ∧ (outcomeOf ((t1.take 8).set 6 0x13)).1 = .identityMismatch ∧
    (outcomeOf (t1.take 6)).1 = .identityMismatch := by decide +kernel

/-! ## Host scripts (PR1, PR3) -/

/-- PR1: what `ldkey`, `ldframe` and `cmd` expand to. -/
theorem test_script_expansion :
    (Stmt.steps (.ldkey keyBytes)).map stepInput =
      [.hostWrite 0x020 4 0x7B6A5F4E, .hostWrite 0x024 4 0xBFAE9D8C, .hostWrite 0x028 4 0xF3E2D1C0,
       .hostWrite 0x02C 4 0x37261504] ∧
    ((Stmt.steps (.ldframe t1)).map stepInput).drop 8 =
      [.hostWrite 0x120 4 0xABA07C0B, .hostWrite 0x124 4 0x000000CD, .hostWrite 0x00C 4 0x00000025] ∧
    (Stmt.steps (.cmd .decode)).map stepInput = [.hostWrite 0x008 4 0x00000002] := by decide +kernel

/-- PR3 and R321: the completion may come after a poll that read BUSY, and before a statement between `cmd DECODE`
and `wait`. -/
theorem test_script_schedules :
    (lockedIdle.withScript [.cmd .decode, .wr (.frame 0) 0, .wait] [.host, .host, .host, .engine, .host]).inputs =
      [.hostWrite 0x008 4 2, .hostWrite 0x100 4 0, .hostRead 0x004 4, .engineTurn, .hostRead 0x004 4] ∧
    (lockedIdle.withScript [.cmd .decode, .wr (.frame 0) 0, .wait] [.host, .engine, .host, .host]).inputs =
      [.hostWrite 0x008 4 2, .engineTurn, .hostWrite 0x100 4 0, .hostRead 0x004 4] := by decide +kernel

/-- R107: the loop tests bit 0 of the value read: in IDLE `wait` ends after one poll, however many turns the host
has, and in BUSY it goes on. -/
theorem test_wait_tests_bit_0 :
    (lockedIdle.withScript [.wait] [.host, .host, .host]).inputs = [.hostRead 0x004 4] ∧
    (lockedBusy.withScript [.wait] [.host, .host]).inputs =
      [.hostRead 0x004 4, .hostRead 0x004 4, .engineTurn, .hostRead 0x004 4] := by decide +kernel

/-- R106: the listing form. -/
theorem test_listing :
    listingLine (.hostWrite 0x008 4 0x00000003) = some "W 008 00000003".toList ∧
    listingLine (.hostRead 0x04C 4) = some "R 04C".toList ∧ listingLine .engineTurn = none := by decide

/-- Log entry 18: an offset above 0xFFF is listed with all its digits. -/
theorem test_listing_long : listedOffset 0x1008 = "1008".toList ∧ listedOffset 0xFFC = "FFC".toList ∧
    listedOffset 0 = "000".toList := by decide

/-! ## Witnesses: concrete states and operands that meet the hypotheses of each statement -/

theorem test_witness_ResetInputResetsInEveryPhase :
    (feed (decoding t1) [.assertReset, .engineTurn]).inputs = .assertReset :: [.engineTurn] ∧
    (feed (decoding t1) [.assertReset]).phase = .busy ∧ (feed afterE1 [.assertReset]).phase = .idle := by decide

/-- Both clauses at one step: the lock and the key cleared by reset. -/
theorem test_witness_OnlyResetClearsTheLock :
    lockedIdle.cfgLocked = true ∧
    ∃ t, step (feed lockedIdle [.assertReset]) = .next t ∧ t.cfgLocked = false ∧
      t.keyWord ≠ (feed lockedIdle [.assertReset]).keyWord :=
  ⟨rfl, _, rfl, rfl, fun h => absurd (congrFun h 0) (by decide)⟩

theorem test_witness_LockedConfigurationIsConstantUntilReset :
    (feed lockedIdle [.hostWrite 0x020 4 0, .hostWrite 0x010 4 0]).cfgLocked = true ∧
    Input.assertReset ∉ (feed lockedIdle [.hostWrite 0x020 4 0, .hostWrite 0x010 4 0]).inputs ∧
    ∃ t, (feed lockedIdle [.hostWrite 0x020 4 0, .hostWrite 0x010 4 0]).run 2 = .next t :=
  ⟨rfl, by decide, _, rfl⟩

/-- The invariant at reset, after V-E1, and in BUSY, each with a step. -/
theorem test_witness_EveryStepKeepsTheInvariant :
    State.reset.Inv ∧ (∃ t, step State.reset = .next t) ∧
    (feed afterE1 [.hostWrite 0x008 4 2]).Inv ∧ (∃ t, step (feed afterE1 [.hostWrite 0x008 4 2]) = .next t) ∧
    (decoding t1).Inv ∧ (∃ t, step (decoding t1) = .next t) := by
  refine ⟨⟨?_, ?_, ?_, ?_, ?_, ?_⟩, ⟨_, rfl⟩, ⟨?_, ?_, ?_, ?_, ?_, ?_⟩, ⟨_, rfl⟩, ⟨?_, ?_, ?_, ?_, ?_, ?_⟩, ⟨_, rfl⟩⟩ <;>
    decide +kernel

/-- IDLE with DECODE, and BUSY with each of the three endings. -/
theorem test_witness_PhaseChangesOnlyByDecodeAndCompletion :
    after (step (feed lockedIdle [.hostWrite 0x008 4 2])) State.phase = some .busy ∧
    after (step (feed lockedIdle [.hostWrite 0x008 4 1])) State.phase = some .idle ∧
    after (step (feed lockedBusy [])) State.phase = some .idle ∧
    after (step (feed lockedBusy [.engineTurn])) State.phase = some .idle ∧
    after (step (feed lockedBusy [.assertReset])) State.phase = some .idle ∧
    after (step (feed lockedBusy [.hostWrite 0x008 4 2])) State.phase = some .busy := by decide

/-- Each error bit cleared by its W1C write, all by reset, and each set with the other two unchanged. -/
theorem test_witness_ErrorBitsAreSticky :
    after (step (feed allErrors [.hostWrite 0x004 4 0x100])) State.errCmd = some false ∧
    after (step (feed allErrors [.hostWrite 0x004 4 0x200])) State.errBusy = some false ∧
    after (step (feed allErrors [.hostWrite 0x004 4 0x400])) State.errLocked = some false ∧
    after (step (feed allErrors [.assertReset])) (fun t => t.errCmd || t.errBusy || t.errLocked) = some false ∧
    after (step (feed lockedIdle [.hostWrite 0x008 4 0x04])) State.errCmd = some true ∧
    after (step (feed lockedBusy [.hostWrite 0x00C 4 0])) State.errBusy = some true ∧
    after (step (feed lockedIdle [.hostWrite 0x010 4 0])) State.errLocked = some true := by decide

/-- DONE set by the completion; cleared by DECODE, ARM, the W1C write and reset. -/
theorem test_witness_DoneIsSetByCompletionOnly :
    lockedBusy.done = false ∧ after (step (feed lockedBusy [.engineTurn])) State.done = some true ∧
    after (step (feed lockedBusy [])) State.done = some true ∧ afterE1.done = true ∧
    after (step (feed afterE1 [.hostWrite 0x008 4 2])) State.done = some false ∧
    after (step (feed afterE1 [.hostWrite 0x008 4 1])) State.done = some false ∧
    after (step (feed afterE1 [.hostWrite 0x004 4 2])) State.done = some false ∧
    after (step (feed afterE1 [.assertReset])) State.done = some false := by decide

/-- The word of each command in both clauses. -/
theorem test_witness_StepRunsTheDecodedCommand :
    (feed lockedIdle [.hostWrite 0x008 4 3, .engineTurn]).inputs = .hostWrite 0x008 4 3 :: [.engineTurn] ∧
    decodeWord 3 = .ok .lockCfg ∧ decodeTableWord 32 0 = some .nop ∧ decodeTableWord 32 3 = some .lockCfg := by decide

/-- The least and the greatest reserved opcode, and MBZ bits at both ends, in IDLE and in BUSY. -/
theorem test_witness_ReservedWordSetsOneErrorBit :
    ((0x00000100 : Word).extractLsb' 8 24 ≠ 0) ∧ ((0x80000003 : Word).extractLsb' 8 24 ≠ 0) ∧
    0x04 ≤ ((0x00000004 : Word).extractLsb' 0 8).toNat ∧ 0x04 ≤ ((0x000000FF : Word).extractLsb' 0 8).toNat ∧
    (feed lockedIdle [.hostWrite 0x008 4 0x04]).inputs = .hostWrite 0x008 4 0x04 :: [] ∧
    lockedIdle.phase = .idle ∧ lockedBusy.phase = .busy := by decide

/-- NOP, ARM, LOCK_CFG and DECODE: a block in IDLE that is locked, one that is not, and one in BUSY. -/
theorem test_witness_commands :
    (feed afterE1 [.hostWrite 0x008 4 0x00000100]).inputs = .hostWrite 0x008 4 0x00000100 :: [] ∧
    afterE1.phase = .idle ∧ afterE1.cfgLocked = true ∧ State.reset.phase = .idle ∧
    State.reset.cfgLocked = false ∧ (decoding t1).phase = .busy := by decide

/-- The same block for `NopAndLockCfgFrame`, `ArmFrame` and `DecodeStartFrame`: each answers a next state,
and `ArmFrame` has its BUSY clause. -/
theorem test_witness_frames :
    (∃ t, exec .nop afterE1 = .next t) ∧ (∃ t, exec .lockCfg afterE1 = .next t) ∧
    (∃ t, exec .arm afterE1 = .next t) ∧ (∃ t, exec .arm (decoding t1) = .next t) ∧
    (∃ t, exec .decode afterE1 = .next t) ∧ (decoding t1).phase = .busy :=
  ⟨⟨_, rfl⟩, ⟨_, rfl⟩, ⟨_, rfl⟩, ⟨_, rfl⟩, ⟨_, rfl⟩, rfl⟩

/-- The decode of T1, whose outcome is V-E1's, with the engine's turn and with no input left. -/
theorem test_witness_CompletionPostsThePipelineOutcome :
    (feed (decoding t1) [.engineTurn]).inputs = .engineTurn :: [] ∧ (decoding t1).inputs = [] ∧
    (decoding t1).phase = .busy ∧
    (∀ k, k < 16 → Block.byte (blockOf keyBytes) k =
      ((decoding t1).keyWord (Fin.ofNat 4 (k / 4))).extractLsb' (8 * (k % 4)) 8) ∧
    (∀ i, i < 4 → byteAt [0x12, 0x34, 0x56, 0x78] i =
      (decoding t1).identity.extractLsb' (24 - 8 * i) 8) ∧
    decodePipeline (decoding t1).cfgLocked (blockOf keyBytes) (byteAt [0x12, 0x34, 0x56, 0x78])
      (decoding t1).frameByte (decoding t1).length =
      (.ok, { volume := 123456, target := 100000, infoCode := 0
              flowTemperature := 18, ambientTemperature := 21 }) := by decide +kernel

theorem test_witness_IdleEngineTurnChangesNothing :
    (feed afterE1 [.engineTurn]).inputs = .engineTurn :: [] ∧ afterE1.inputs = [] ∧ afterE1.phase = .idle := by
  decide

/-- Host transactions of every kind before the engine's turn, and before the end of the host's program. -/
theorem test_witness_RunningDecodeCompletesAtTheEngineTurn :
    (decoding t1).phase = .busy ∧
    (∀ x, x ∈ [Input.hostRead 0x004 4, .hostWrite 0x100 4 0, .hostRead 0x001 4] →
      x ≠ .engineTurn ∧ x ≠ .assertReset) ∧
    (feed (decoding t1) [.hostRead 0x004 4, .hostWrite 0x100 4 0, .hostRead 0x001 4, .engineTurn]).inputs =
      [.hostRead 0x004 4, .hostWrite 0x100 4 0, .hostRead 0x001 4] ++ .engineTurn :: [] ∧
    (decoding t1).inputs = [] := by decide

/-- A rejected telegram, as the pipeline's input and in the registers of a running decode. -/
theorem test_witness_FailurePostsTheZeroReading :
    (decodePipeline true (blockOf keyBytes) (identityByte 0x12345678) (byteAt tu) 37).1 ≠ .ok ∧
    (decoding tu).completeDecode.result ≠ .ok := by decide +kernel

/-- Another meter's address, and LENGTH 6, the greatest that holds no address; locked and unlocked. -/
theorem test_witness_ForeignTelegramIsRejected :
    (feed (decoding (t1.set 6 0x13)) [.engineTurn]).inputs = .engineTurn :: [] ∧
    le32 (decoding (t1.set 6 0x13)).frameByte 3 ≠ (decoding (t1.set 6 0x13)).identity ∧
    State.length { decoding t1 with length := 6 } < 7 ∧ (decoding t1).phase = .busy ∧
    State.cfgLocked { decoding t1 with cfgLocked := false } = false := by decide +kernel

/-- Two frame buffers for each clause: they differ at bytes 0, 9, 11 and past the ciphertext of a telegram of 20,
wholly at LENGTH 6, and at and above `length - 2` for LENGTH 9 and 127 and for LENGTH 7. -/
theorem test_witness_UnreadFrameBytesDoNotMatter :
    (∀ i, (7 ≤ (20 : Byte).toNat ∧ 3 ≤ i ∧ i < 7) ∨
        (20 ≤ (20 : Byte).toNat ∧ (20 : Byte).toNat ≤ 127 ∧
          ((1 ≤ i ∧ i < 9) ∨ i = 10 ∨ (12 ≤ i ∧ i + 2 < (20 : Byte).toNat))) →
      0x00 = if i = 0 ∨ i = 9 ∨ i = 11 ∨ 18 ≤ i then (0xFF : Byte) else 0x00) ∧
    (∀ i, (7 ≤ (6 : Byte).toNat ∧ 3 ≤ i ∧ i < 7) ∨
        (20 ≤ (6 : Byte).toNat ∧ (6 : Byte).toNat ≤ 127 ∧
          ((1 ≤ i ∧ i < 9) ∨ i = 10 ∨ (12 ≤ i ∧ i + 2 < (6 : Byte).toNat))) → (0x00 : Byte) = 0xFF) ∧
    (∀ n : Byte, n = 9 ∨ n = 127 → n.toNat ≠ 7 ∧ n.toNat ≠ 8 ∧
      ∀ i, i ≠ 0 → i ≠ 9 → i ≠ 11 → i + 2 < n.toNat → 0x00 = if n.toNat ≤ i + 2 then (0xFF : Byte) else 0x00) ∧
    (∀ i, i ≠ 0 → i ≠ 9 → i ≠ 11 → i + 2 < (7 : Byte).toNat → 0x00 = if 5 ≤ i then (0xFF : Byte) else 0x00) ∧
    (∀ i : Nat, i ≠ 0 → i ≠ 9 → i ≠ 11 → 0x00 = if i = 0 ∨ i = 9 ∨ i = 11 then (0xFF : Byte) else 0x00) := by
  have h20 : (20 : Byte).toNat = 20 := rfl
  have h6 : (6 : Byte).toNat = 6 := rfl
  have h7 : (7 : Byte).toNat = 7 := rfl
  rw [h20, h6, h7]
  refine ⟨fun i h => ?_, fun i h => by omega, fun n h => ⟨?_, ?_, fun i _ _ _ hi => ?_⟩, fun i _ _ _ hi => ?_,
    fun i h0 h9 h11 => ?_⟩
  · rw [if_neg (by omega)]
  · rcases h with rfl | rfl <;> decide
  · rcases h with rfl | rfl <;> decide
  · rw [if_neg (by omega)]
  · rw [if_neg (by omega)]
  · rw [if_neg (by omega)]

/-- A telegram written in full, at LENGTH 37 and at the greatest LENGTH, 127; and what is enough at LENGTH 7 and 6. -/
theorem test_witness_WrittenTelegramIgnoresTheDraw :
    (decoding t1).telegramWritten ∧ (decoding (List.replicate 127 0x00)).telegramWritten ∧
    (holding [(3, 0), (4, 0), (5, 0), (6, 0)] 7).telegramWritten ∧ (holding [] 6).telegramWritten := by
  refine ⟨?_, ?_, ?_, ?_⟩ <;> unfold State.telegramWritten <;> decide +kernel

/-- Two telegrams that differ outside the IV only. -/
theorem test_witness_IvIsBuiltFromTheHeader : buildIv (byteAt t1) = buildIv (byteAt (t1.set 0 0x00)) := by decide

/-- The IV of H1 at both ends of the range of `j`, with the counter block of V-D3. -/
theorem test_witness_CounterChangesOnlyTheLastByte :
    (buildIv (byteAt h1)).c3.r3 = 0 ∧ 0 < 256 ∧ 255 < 256 ∧
    Block.toList (counterBlock (buildIv (byteAt h1)) 6) =
      [0x2D, 0x2C, 0x78, 0x56, 0x34, 0x12, 0x1B, 0x16, 0x20, 0x01, 0x02, 0x03, 0x04, 0x00, 0x00, 0x06] := by
  decide +kernel

/-- The first and the last byte of a ciphertext, the last in a truncated block. -/
theorem test_witness_CtrDecryptIsBytewiseXor : 0 < ct1.length ∧ 18 < ct1.length := by decide

/-- A byte with an inverse, and the last byte of a block. -/
theorem test_witness_SboxTableIsItsDefinition : (0x53 : Byte) ≠ 0 ∧ gfInv 0x53 = 0xCA ∧ 15 < 16 := by decide +kernel

theorem test_witness_ShiftRowsRotatesEachRow : 3 < 4 ∧ 0 < 4 := by decide

/-- The words where the clauses of the recurrence begin and end. -/
theorem test_witness_KeyScheduleRecurrence : 3 < 4 ∧ 4 ≤ 4 ∧ 4 < 44 ∧ 43 < 44 := by decide

/-- The plaintext P1, whose checksum passes, with the first and the last bit flipped; and the same of one byte. -/
theorem test_witness_ChecksumDetectsEverySingleBitFlip :
    2 ≤ p1.length ∧ 0 < p1.length ∧ 18 < p1.length ∧ 7 < 8 ∧ checkIntegrity p1 p1.length = .ok () ∧
    0 < ([0x00] : List Byte).length := by decide +kernel

/-- Each marker at its least `C`, another marker at `C = 3`, and the decode of Tu. -/
theorem test_witness_MarkerSelectsTheLayout :
    (byteAt p1 2 = 0x79 ∧ 19 ≤ p1.length) ∧ (byteAt (p1.set 2 0x78) 2 = 0x78 ∧ 26 ≤ 26) ∧
    (byteAt (p1.set 2 0x7A) 2 ≠ 0x79 ∧ byteAt (p1.set 2 0x7A) 2 ≠ 0x78 ∧ 3 ≤ 3) ∧
    pipelineStages (decoding tu).cfgLocked (decoding tu).key (identityByte (decoding tu).identity)
      (decoding tu).frameByte (decoding tu).length = .error .unknownLayout := by decide +kernel

/-- No marker, and each layout one byte short; two plaintexts that differ at byte `C`. -/
theorem test_witness_ShortRecordFailsClosed :
    2 < 3 ∧ (byteAt p1 2 = 0x79 ∧ 18 < 19) ∧ (byteAt (p1.set 2 0x78) 2 = 0x78 ∧ 25 < 26) ∧
    (∀ i, i < 18 → byteAt p1 i = byteAt (p1.set 18 0xFF) i) ∧ byteAt p1 18 ≠ byteAt (p1.set 18 0xFF) 18 := by decide

/-- Every clause's input, and the ends of every range of offsets. -/
theorem test_witness_MemReadReturnsTheRegister :
    (feed (decoding t1) [.hostRead 0x100 4]).inputs = .hostRead (0x100 + 4 * 0) 4 :: [] ∧
    (feed (decoding t1) [.hostRead 0x17C 4]).inputs = .hostRead (0x100 + 4 * 31) 4 :: [] ∧ 31 < 32 ∧
    (∀ a, a ∈ [0x014, 0x01C, 0x030, 0x03C, 0x050, 0x0FC, 0x180, 0xFFC] → a % 4 = 0 ∧
      ((0x014 ≤ a ∧ a ≤ 0x01C) ∨ (0x030 ≤ a ∧ a ≤ 0x03C) ∨ (0x050 ≤ a ∧ a ≤ 0x0FC) ∨
        (0x180 ≤ a ∧ a ≤ 0xFFC))) := by decide

theorem test_witness_UnguardedWrites :
    (feed (decoding t1) [.hostWrite 0x000 4 1]).inputs = .hostWrite 0x000 4 1 :: [] ∧
    (feed allErrors [.hostWrite 0x004 4 0x702]).inputs = .hostWrite 0x004 4 0x702 :: [] ∧
    (feed afterE1 [.hostWrite 0x04C 4 0]).inputs = .hostWrite 0x04C 4 0 :: [] := by decide

theorem test_witness_ConfigurationAndLengthWrites :
    State.reset.phase = .idle ∧ State.reset.cfgLocked = false ∧
    (feed State.reset [.hostWrite 0x00C 4 0x1FF]).inputs = .hostWrite 0x00C 4 0x1FF :: [] ∧
    (feed State.reset [.hostWrite 0x02C 4 1]).inputs = .hostWrite 0x02C 4 1 :: [] := by decide

/-- The first and the last word of the window, with the bytes at the ends of the buffer. -/
theorem test_witness_FrameWordWriteAndReadBack :
    0 < 32 ∧ 31 < 32 ∧ lockedIdle.phase = .idle ∧
    (feed lockedIdle [.hostWrite 0x100 4 1]).inputs = .hostWrite (0x100 + 4 * 0) 4 1 :: [] ∧
    (feed lockedIdle [.hostWrite 0x17C 4 1]).inputs = .hostWrite (0x100 + 4 * 31) 4 1 :: [] ∧ 126 < 127 := by decide

/-- A guarded offset at each end of each range, and the unguarded ones beside them. -/
theorem test_witness_BusyGateDropsTheWrite :
    lockedBusy.phase = .busy ∧ lockedIdle.phase = .idle ∧
    (feed lockedBusy [.hostWrite 0x17C 4 0]).inputs = .hostWrite 0x17C 4 0 :: [] ∧
    (∀ a, a ∈ [0x008, 0x00C, 0x010, 0x020, 0x02C, 0x100, 0x17C] → a % 4 = 0 ∧ a ≤ 0xFFC ∧
      (a = 0x008 ∨ a = 0x00C ∨ a = 0x010 ∨ (0x020 ≤ a ∧ a ≤ 0x02C) ∨ (0x100 ≤ a ∧ a ≤ 0x17C))) ∧
    (∀ a, a ∈ [0x000, 0x004, 0x014, 0x01C, 0x030, 0x0FC, 0x180, 0xFFC] → a % 4 = 0 ∧ a ≤ 0xFFC ∧
      ¬(a = 0x008 ∨ a = 0x00C ∨ a = 0x010 ∨ (0x020 ≤ a ∧ a ≤ 0x02C) ∨ (0x100 ≤ a ∧ a ≤ 0x17C))) := by decide

theorem test_witness_LockGateDropsTheWrite :
    lockedIdle.phase = .idle ∧ lockedIdle.cfgLocked = true ∧
    (feed lockedIdle [.hostWrite 0x02C 4 0]).inputs = .hostWrite 0x02C 4 0 :: [] ∧
    (∀ a, a ∈ [0x010, 0x020, 0x02C] → a % 4 = 0 ∧ (a = 0x010 ∨ (0x020 ≤ a ∧ a ≤ 0x02C))) := by decide

theorem test_witness_ReservedOffsetsReadZeroIgnoreWrites :
    (feed lockedBusy [.hostRead 0x01C 4]).inputs = .hostRead 0x01C 4 :: [] ∧
    (feed lockedBusy [.hostWrite 0x180 4 1]).inputs = .hostWrite 0x180 4 1 :: [] ∧
    (∀ a, a ∈ [0x014, 0x01C, 0x030, 0x03C, 0x050, 0x0FC, 0x180, 0xFFC] → a % 4 = 0 ∧
      ((0x014 ≤ a ∧ a ≤ 0x01C) ∨ (0x030 ≤ a ∧ a ≤ 0x03C) ∨ (0x050 ≤ a ∧ a ≤ 0x0FC) ∨
        (0x180 ≤ a ∧ a ≤ 0xFFC))) := by decide

/-- Each way an access is refused, and the last offset that is not. -/
theorem test_witness_BusErrorIsRecordedAndNeverCleared :
    (2 ≠ 4) ∧ 0x001 % 4 ≠ 0 ∧ 0x1000 > 0xFFC ∧
    (feed lockedIdle [.hostRead 0x001 4]).inputs = .hostRead 0x001 4 :: [] ∧
    (feed lockedIdle [.hostWrite 0x1000 4 0]).inputs = .hostWrite 0x1000 4 0 :: [] ∧
    0xFFC % 4 = 0 ∧ after (step (feed lockedIdle [.hostRead 0xFFC 4])) State.faults = some [] ∧
    after (step (feed lockedIdle [.hostWrite 0xFFC 4 0])) State.faults = some [] := by decide

/-- An acknowledgement word; ARM and DECODE in IDLE with `irq` 1. -/
theorem test_witness_AcknowledgementDropsTheInterrupt :
    (0x00000002 : Word).getLsbD 1 = true ∧ State.irq { afterE1 with irqEn := true } = true ∧
    State.phase { afterE1 with irqEn := true } = .idle ∧
    (∃ t, exec .arm { afterE1 with irqEn := true } = .next t) ∧
    (∃ t, exec .decode { afterE1 with irqEn := true } = .next t) :=
  ⟨rfl, rfl, rfl, ⟨_, rfl⟩, ⟨_, rfl⟩⟩

/-- The first and the last address of the register space at base 0x40000000, and the ones beside them. -/
theorem test_witness_BusAddressSelectsTheOffset :
    0x000 < 0x1000 ∧ 0xFFF < 0x1000 ∧ 0x3FFFFFFF < 0x40000000 ∧ 0x40000000 + 0x1000 ≤ 0x40001000 := by decide

theorem test_witness_LdkeyLoadsTheKeyBytes :
    State.reset.phase = .idle ∧ State.reset.cfgLocked = false ∧ Stmt.wellFormed (.ldkey keyBytes) = true ∧
    15 < 16 := by decide

/-- An idle block; the numbers of bytes at the ends of both clauses: none, all 127, one past the window. -/
theorem test_witness_LdframeLoadsTheTelegram :
    State.reset.phase = .idle ∧ ¬(0 < 4 * ((([] : List Byte).length + 3) / 4)) ∧
    126 < 4 * (((List.replicate 127 0xFF : List Byte).length + 3) / 4) ∧ 126 < 127 ∧
    (List.replicate 129 0xFF : List Byte).length % 256 = 129 := by decide +kernel

end Sys2Proof.Tests.Slice0
end

/-! SUPPORT, and the statements of 10_state.md settled. What one step can do to the block's registers is said once,
with the input that does it; the statements over steps are derived from that. -/

namespace Sys2Proof.Machine

/-! ## What one step does to the registers -/

/-- `c` has the registers of `s`: at most the inputs to come, the port's answer and the recorded faults differ. -/
def SameRegisters (c s : State) : Prop :=
  ∃ (xs : List Input) (a : Answer) (fs : List Fault), c = { s with inputs := xs, answer := a, faults := fs }

/-- The engine's turn comes: the oldest input says so, or no input is left (log entry 1). -/
def State.engineNext (s : State) : Prop := s.inputs = [] ∨ ∃ rest, s.inputs = .engineTurn :: rest

/-- What one step from `s` can do (20_memory.md R77-R79, R87), where `c` is `s` with the input taken off and the
port's answer given: the effect on the registers, with the input and the gates that let it through. -/
inductive StepEffect (s c : State) : State → Prop
  | keeps : StepEffect s c c
  | completes (hb : s.phase = .busy) (hx : s.engineNext) : StepEffect s c c.completeDecode
  | resets {rest : List Input} (hx : s.inputs = .assertReset :: rest) : StepEffect s c c.resetBlock
  | writesCtrl (v : Word) : StepEffect s c (c.writeCtrl v)
  | writesStatus {v : Word} {rest : List Input} (hx : s.inputs = .hostWrite 0x004 4 v :: rest) :
      StepEffect s c (c.writeStatus v)
  | dropsBusy (hb : s.phase = .busy) : StepEffect s c c.raiseErrBusy
  | dropsLocked (hp : s.phase = .idle) (hl : s.cfgLocked = true) : StepEffect s c c.raiseErrLocked
  | reservedWord (hp : s.phase = .idle) : StepEffect s c c.raiseErrCmd
  | arms {v : Word} {rest : List Input} (hp : s.phase = .idle) (hx : s.inputs = .hostWrite 0x008 4 v :: rest)
      (hv : decodeWord v = .ok .arm) : StepEffect s c (cmdArm c)
  | startsDecode {v : Word} {rest : List Input} (hp : s.phase = .idle)
      (hx : s.inputs = .hostWrite 0x008 4 v :: rest) (hv : decodeWord v = .ok .decode) :
      StepEffect s c (cmdDecodeStart c)
  | locks (hp : s.phase = .idle) : StepEffect s c (cmdLockCfg c)
  | writesLength (hp : s.phase = .idle) (v : Word) : StepEffect s c (c.setLength v)
  | writesIdentity (hp : s.phase = .idle) (hl : s.cfgLocked = false) (v : Word) : StepEffect s c (c.setIdentity v)
  | writesKey (hp : s.phase = .idle) (hl : s.cfgLocked = false) (j : Fin 4) (v : Word) :
      StepEffect s c (c.setKey j v)
  | writesFrame (hp : s.phase = .idle) (w : Fin 32) (v : Word) : StepEffect s c (c.setFrameWord w v)

theorem sameRegisters_consume (s : State) (rest : List Input) : SameRegisters (s.consume rest) s :=
  ⟨rest, .quiet, s.faults, rfl⟩

theorem SameRegisters.respond {c s : State} (h : SameRegisters c s) (a : Answer) :
    SameRegisters (c.respond a) s := by
  obtain ⟨xs, -, fs, rfl⟩ := h
  exact ⟨xs, a, fs, rfl⟩

theorem SameRegisters.recordBusError {c s : State} (h : SameRegisters c s) (a n : Nat) :
    SameRegisters (c.recordBusError a n) s := by
  obtain ⟨xs, an, fs, rfl⟩ := h
  exact ⟨xs, an, fs ++ [.busError a n], rfl⟩

/-- A host read leaves every register as it is (20_memory.md R84). -/
theorem SameRegisters.hostRead {c s : State} (h : SameRegisters c s) (a n : Nat) :
    SameRegisters (hostRead a n c) s := by
  unfold Machine.hostRead
  split
  · exact h.respond _
  · exact (h.recordBusError a n).respond _

theorem SameRegisters.phase {c s : State} (h : SameRegisters c s) : c.phase = s.phase := by
  obtain ⟨xs, a, fs, rfl⟩ := h
  rfl

theorem SameRegisters.cfgLocked {c s : State} (h : SameRegisters c s) : c.cfgLocked = s.cfgLocked := by
  obtain ⟨xs, a, fs, rfl⟩ := h
  rfl

/-- A write behind `gate_busy` (20_memory.md R78) has one of the effects when the write itself does in IDLE. -/
theorem gateBusy_effect {s c : State} {f : State → State} (hc : SameRegisters c s)
    (hf : s.phase = .idle → StepEffect s c (f c)) : StepEffect s c (gateBusy c f) := by
  rcases gateBusy_cases c f with ⟨hp, e⟩ | ⟨hp, e⟩ <;> rw [e]
  · exact hf (hc.phase ▸ hp)
  · exact .dropsBusy (hc.phase ▸ hp)

/-- A write behind both gates (R79) has one of the effects when the write itself does in IDLE and unlocked. -/
theorem gateConfig_effect {s c : State} {f : State → State} (hc : SameRegisters c s)
    (hf : s.phase = .idle → s.cfgLocked = false → StepEffect s c (f c)) : StepEffect s c (gateConfig c f) :=
  gateBusy_effect hc fun hp => by
    unfold gateLock
    split
    · next hl => exact .dropsLocked hp (hc.cfgLocked ▸ hl)
    · next hl => exact hf hp (by simpa [hc.cfgLocked] using hl)

/-- A write of CMD runs the command of its word, or raises ERR_CMD at a reserved word (40_commands.md R130). -/
theorem writeCmd_effect {v : Word} {s c t : State} {rest : List Input} (hc : SameRegisters c s)
    (hx : s.inputs = .hostWrite 0x008 4 v :: rest) (h : writeCmd v c = .next t) : StepEffect s c t := by
  unfold writeCmd at h
  split at h
  · next i hv =>
    cases i with
    | nop => cases h; exact gateBusy_effect hc fun _ => .keeps
    | arm => cases h; exact gateBusy_effect hc fun hp => .arms hp hx hv
    | decode => cases h; exact gateBusy_effect hc fun hp => .startsDecode hp hx hv
    | lockCfg => cases h; exact gateBusy_effect hc fun hp => .locks hp
  · cases h
    exact gateBusy_effect hc fun hp => .reservedWord hp

/-- A write of a register at its own offset has one of the effects (20_memory.md R77). -/
theorem writeReg_effect {r : Reg} {v : Word} {s c t : State} {rest : List Input} (hc : SameRegisters c s)
    (hx : s.inputs = .hostWrite (regOffset r) 4 v :: rest) (h : writeReg r v c = .next t) : StepEffect s c t := by
  cases r with
  | cmd => exact writeCmd_effect hc hx h
  | ctrl => cases h; exact .writesCtrl v
  | status => cases h; exact .writesStatus hx
  | length => cases h; exact gateBusy_effect hc fun hp => .writesLength hp v
  | identity => cases h; exact gateConfig_effect hc fun hp hl => .writesIdentity hp hl v
  | key j => cases h; exact gateConfig_effect hc fun hp hl => .writesKey hp hl j v
  | frame w => cases h; exact gateBusy_effect hc fun hp => .writesFrame hp w v
  | volume | target | info | temp => cases h; exact .keeps

/-- The inversion of a step: some state with the registers of `s`, and one of the effects on it. -/
theorem step_effect {s t : State} (h : step s = .next t) : ∃ c, SameRegisters c s ∧ StepEffect s c t := by
  obtain ⟨c, hc, hcase⟩ := step_cases h
  have hsame : SameRegisters c s := by
    rcases hc with ⟨-, rfl⟩ | ⟨-, -, e⟩
    · exact sameRegisters_consume s []
    · exact e ▸ sameRegisters_consume s c.inputs
  rcases hcase with ⟨rfl, hx⟩ | ⟨rfl, hx⟩ | ⟨a, n, -, rfl⟩ | ⟨a, n, v, hx, hw⟩
  · refine ⟨c, hsame, ?_⟩
    rcases runEngine_cases c with ⟨-, e⟩ | ⟨hb, e⟩ <;> rw [e]
    · exact .keeps
    · exact .completes (hsame.phase ▸ hb) (hx.imp_right fun hx => ⟨_, hx⟩)
  · exact ⟨c, hsame, .resets hx⟩
  · exact ⟨_, hsame.hostRead a n, .keeps⟩
  · rcases hw with ⟨-, rfl⟩ | ⟨-, -, rfl⟩ | ⟨hok, r, hr, hw⟩
    · exact ⟨_, (hsame.recordBusError a n).respond _, .keeps⟩
    · exact ⟨_, hsame.respond _, .keeps⟩
    · obtain ⟨rfl, -, -⟩ := (accessOk_iff a n).mp hok
      obtain rfl := regOffset_of_regAt hr
      exact ⟨_, hsame.respond _, writeReg_effect (hsame.respond _) hx hw⟩

/-- A step takes the oldest input off (20_memory.md R87). -/
theorem step_inputs {s t : State} (h : step s = .next t) : t.inputs = s.inputs.tail := by
  cases hi : s.inputs with
  | nil =>
    rw [step_nil hi] at h
    cases h
    rcases runEngine_cases (s.consume []) with ⟨-, e⟩ | ⟨-, e⟩ <;> rw [e] <;> rfl
  | cons x rest =>
    rw [step_afterInput hi] at h
    cases h
    rfl

/-- A run of `n + 1` steps that ends in a next state is one step and a run of `n`. -/
theorem run_succ_next {s t : State} {n : Nat} (h : s.run (n + 1) = .next t) :
    ∃ m, step s = .next m ∧ m.run n = .next t := by
  rw [run_succ] at h
  split at h
  · next m hm => exact ⟨m, hm, h⟩
  all_goals cases h

/-! ## What a given input does -/

/-- The engine's turn, with or without an input that says so. -/
theorem step_engineNext {s : State} (h : s.engineNext) : ∃ rest, step s = .next (s.consume rest).runEngine := by
  rcases h with h | ⟨rest, h⟩
  · exact ⟨[], step_nil h⟩
  · exact ⟨rest, step_cons h⟩

theorem step_assertReset {s : State} {rest : List Input} (h : s.inputs = .assertReset :: rest) :
    step s = .next (s.consume rest).resetBlock := step_cons h

/-- A write of a register at its own offset, the port's answer given first (20_memory.md R77). -/
theorem step_writeReg {s : State} {rest : List Input} {v : Word} (r : Reg)
    (h : s.inputs = .hostWrite (regOffset r) 4 v :: rest) :
    step s = writeReg r v ((s.consume rest).respond .writeDone) :=
  (step_cons h).trans (hostWrite_reg r v _)

theorem step_writeStatus {s : State} {rest : List Input} {v : Word}
    (h : s.inputs = .hostWrite 0x004 4 v :: rest) :
    step s = .next (((s.consume rest).respond .writeDone).writeStatus v) :=
  step_writeReg .status h

/-- A write of a command word to CMD runs the command (40_commands.md R130). -/
theorem step_writeCmd {s : State} {rest : List Input} {v : Word} {i : Instr}
    (h : s.inputs = .hostWrite 0x008 4 v :: rest) (hv : decodeWord v = .ok i) :
    step s = exec i ((s.consume rest).respond .writeDone) := by
  refine (step_writeReg .cmd h).trans ?_
  simp [writeReg, writeCmd, hv]

theorem exec_arm_idle {s : State} (hp : s.phase = .idle) : exec .arm s = .next (cmdArm s) :=
  congrArg _ (gateBusy_idle hp cmdArm)

theorem exec_decode_idle {s : State} (hp : s.phase = .idle) : exec .decode s = .next (cmdDecodeStart s) :=
  congrArg _ (gateBusy_idle hp cmdDecodeStart)

theorem step_arm_idle {s : State} {rest : List Input} {v : Word} (hp : s.phase = .idle)
    (h : s.inputs = .hostWrite 0x008 4 v :: rest) (hv : decodeWord v = .ok .arm) :
    step s = .next (cmdArm ((s.consume rest).respond .writeDone)) :=
  (step_writeCmd h hv).trans (exec_arm_idle (s := (s.consume rest).respond .writeDone) hp)

theorem step_decode_idle {s : State} {rest : List Input} {v : Word} (hp : s.phase = .idle)
    (h : s.inputs = .hostWrite 0x008 4 v :: rest) (hv : decodeWord v = .ok .decode) :
    step s = .next (cmdDecodeStart ((s.consume rest).respond .writeDone)) :=
  (step_writeCmd h hv).trans (exec_decode_idle (s := (s.consume rest).respond .writeDone) hp)

@[simp] theorem completeDecode_phase (s : State) : s.completeDecode.phase = .idle := rfl

@[simp] theorem completeDecode_done (s : State) : s.completeDecode.done = true := rfl

@[simp] theorem cmdArm_phase (s : State) : (cmdArm s).phase = s.phase := rfl

@[simp] theorem cmdArm_done (s : State) : (cmdArm s).done = false := rfl

@[simp] theorem cmdDecodeStart_phase (s : State) : (cmdDecodeStart s).phase = .busy := rfl

@[simp] theorem cmdDecodeStart_done (s : State) : (cmdDecodeStart s).done = false := rfl

@[simp] theorem cmdLockCfg_phase (s : State) : (cmdLockCfg s).phase = s.phase := rfl

@[simp] theorem cmdLockCfg_done (s : State) : (cmdLockCfg s).done = s.done := rfl

theorem runEngine_busy {s : State} (h : s.phase = .busy) : s.runEngine = s.completeDecode := by
  simp [State.runEngine, h]

/-- In BUSY the engine's turn completes the decode (R152). -/
theorem step_engineNext_busy {s t : State} (hb : s.phase = .busy) (hx : s.engineNext) (h : step s = .next t) :
    ∃ c : State, t = c.completeDecode := by
  obtain ⟨rest, e⟩ := step_engineNext hx
  rw [e, runEngine_busy (s := s.consume rest) hb] at h
  cases h
  exact ⟨_, rfl⟩

/-! ## The lock, over a run without reset (10_state.md R59) -/

/-- A step that is no reset keeps a locked configuration (R39, R79): each write of it needs CFG_LOCKED = 0. -/
theorem step_keeps_lockedConfig {s t : State} (hl : s.cfgLocked = true) (hr : Input.assertReset ∉ s.inputs)
    (h : step s = .next t) : t.cfgLocked = true ∧ t.key = s.key ∧ t.identity = s.identity := by
  obtain ⟨c, ⟨xs, a, fs, rfl⟩, heff⟩ := step_effect h
  cases heff with
  | resets hx => simp [hx] at hr
  | writesIdentity hp hu v => simp [hl] at hu
  | writesKey hp hu j v => simp [hl] at hu
  | _ => simp [hl, State.key, cmdArm, cmdDecodeStart, cmdLockCfg, State.completeDecode]

/-- Settles O4: by induction on the run, with the lock and the absence of a reset kept by each step. -/
theorem lockedConfigurationIsConstantUntilReset : Obligations.LockedConfigurationIsConstantUntilReset := by
  intro n
  induction n with
  | zero =>
    intro s t hl hr h
    cases h
    exact ⟨hl, rfl, rfl⟩
  | succ n ih =>
    intro s t hl hr h
    obtain ⟨m, hstep, hrun⟩ := run_succ_next h
    obtain ⟨hml, hmk, hmi⟩ := step_keeps_lockedConfig hl hr hstep
    have hmr : Input.assertReset ∉ m.inputs := fun hmem =>
      hr (List.mem_of_mem_tail (step_inputs hstep ▸ hmem))
    obtain ⟨htl, htk, hti⟩ := ih m t hml hmr hrun
    exact ⟨htl, htk.trans hmk, hti.trans hmi⟩

/-! ## The invariant of the reachable states (10_state.md R56) -/

theorem SameRegisters.inv {c s : State} (hc : SameRegisters c s) (h : s.Inv) : c.Inv := by
  obtain ⟨xs, a, fs, rfl⟩ := hc
  exact { h with }

/-- An unlocked configuration is rejected first (40_commands.md R151). -/
theorem decodePipeline_unlocked (key : Block) (identity frame : Nat → Byte) (length : Byte) :
    decodePipeline false key identity frame length = (.notConfigured, zeroReading) := rfl

/-- Only a locked configuration decodes to OK. -/
theorem locked_of_decodeOutcome_ok {s : State} (h : s.decodeOutcome.1 = .ok) : s.cfgLocked = true := by
  by_contra hl
  rw [State.decodeOutcome, Bool.eq_false_of_not_eq_true hl, decodePipeline_unlocked] at h
  cases h

/-- A code other than OK comes with the zero reading (R153). -/
theorem decodeOutcome_zeroReading {s : State} (h : s.decodeOutcome.1 ≠ .ok) : s.decodeOutcome.2 = zeroReading := by
  unfold State.decodeOutcome at h ⊢
  rcases decodePipeline_cases s.cfgLocked s.key (identityByte s.identity) s.frameByte s.length with
    ⟨rd, -, e⟩ | ⟨code, -, e⟩ <;> rw [e] at h ⊢
  exact absurd rfl h

/-- The completion posts VALID with OK only, and the zero reading with every other code (R152, R153). -/
theorem completeDecode_inv {s : State} (h : s.Inv) : s.completeDecode.Inv where
  frame_wf := h.frame_wf
  valid_iff_ok := by simp [State.completeDecode]
  invalid_zero := by
    intro hv
    have hne : s.decodeOutcome.1 ≠ .ok := by simpa [State.completeDecode] using hv
    simp [State.completeDecode, decodeOutcome_zeroReading hne, zeroReading]
  busy_cleared := by simp [State.completeDecode]
  valid_locked := by
    intro hv
    have hok : s.decodeOutcome.1 = .ok := by simpa [State.completeDecode] using hv
    exact locked_of_decodeOutcome_ok hok
  draw_made := Nat.lt_succ_of_lt h.draw_made

/-- Settles O7: every result field is clear, no frame byte is written, and draw 0 is made. -/
theorem invariantHoldsAtReset : Obligations.InvariantHoldsAtReset where
  frame_wf := reset_frame_wf
  valid_iff_ok := by simp [State.reset]
  invalid_zero := fun _ => ⟨rfl, rfl, rfl, rfl⟩
  busy_cleared := fun h => by cases h
  valid_locked := fun h => by cases h
  draw_made := Nat.zero_lt_one

/-- The reset input leaves the invariant as State.reset has it; the frame's draw is the one just made. -/
theorem resetBlock_inv (s : State) : s.resetBlock.Inv :=
  { invariantHoldsAtReset with draw_made := Nat.lt_succ_self s.draws }

theorem cmdArm_inv {s : State} (h : s.Inv) : (cmdArm s).Inv where
  frame_wf := zeroFrame_wf
  valid_iff_ok := by simp [cmdArm]
  invalid_zero := fun _ => ⟨rfl, rfl, rfl, rfl⟩
  busy_cleared := by simp [cmdArm]
  valid_locked := by simp [cmdArm]
  draw_made := h.draw_made

theorem cmdDecodeStart_inv {s : State} (h : s.Inv) : (cmdDecodeStart s).Inv where
  frame_wf := h.frame_wf
  valid_iff_ok := by simp [cmdDecodeStart]
  invalid_zero := fun _ => ⟨rfl, rfl, rfl, rfl⟩
  busy_cleared := fun _ => ⟨rfl, rfl, rfl⟩
  valid_locked := by simp [cmdDecodeStart]
  draw_made := h.draw_made

theorem writeStatus_inv {s : State} (h : s.Inv) (v : Word) : (s.writeStatus v).Inv := by
  unfold State.writeStatus
  split
  · exact { h with busy_cleared := fun hb => ⟨rfl, (h.busy_cleared hb).2⟩ }
  · exact { h with }

theorem setFrameWord_inv {s : State} (h : s.Inv) (w : Fin 32) (v : Word) : (s.setFrameWord w v).Inv where
  frame_wf := State.setFrameWord_wf s w v h.frame_wf
  valid_iff_ok := by simpa using h.valid_iff_ok
  invalid_zero := by simpa using h.invalid_zero
  busy_cleared := by simpa using h.busy_cleared
  valid_locked := by simpa using h.valid_locked
  draw_made := by simpa using h.draw_made

theorem setKey_inv {s : State} (h : s.Inv) (j : Fin 4) (v : Word) : (s.setKey j v).Inv := by
  unfold State.setKey
  split <;> exact { h with }

/-- Settles O6: each effect of a step keeps the invariant. -/
theorem everyStepKeepsTheInvariant : Obligations.EveryStepKeepsTheInvariant := by
  intro s t hs h
  obtain ⟨c, hc, heff⟩ := step_effect h
  have hi : c.Inv := hc.inv hs
  cases heff with
  | completes => exact completeDecode_inv hi
  | resets => exact resetBlock_inv c
  | writesStatus => exact writeStatus_inv hi _
  | arms => exact cmdArm_inv hi
  | startsDecode => exact cmdDecodeStart_inv hi
  | locks => exact { hi with valid_locked := fun _ => rfl }
  | writesKey => exact setKey_inv hi _ _
  | writesFrame => exact setFrameWord_inv hi _ _
  | keeps | writesCtrl | dropsBusy | dropsLocked | reservedWord | writesLength | writesIdentity =>
    exact { hi with }

/-! ## STATUS as read (10_state.md R35, R36) -/

theorem getLsbD_flagWord (b : Bool) (i : Nat) : (flagWord b).getLsbD i = (decide (i = 0) && b) := by
  cases b <;> simp [flagWord]

@[simp] theorem getElem_flagWord (b : Bool) (i : Nat) (hi : i < 32) :
    (flagWord b)[i] = (decide (i = 0) && b) := getLsbD_flagWord b i

/-- Bits 7:4 of STATUS are the result code alone. -/
theorem statusWord_extract_code (s : State) : s.statusWord.extractLsb' 4 4 = s.result.code := by
  refine BitVec.eq_of_getLsbD_eq fun i hi => ?_
  interval_cases i <;> simp [State.statusWord]

/-- Bits 31:11 of STATUS are above every field. -/
theorem statusWord_extract_reserved (s : State) : s.statusWord.extractLsb' 11 21 = 0 := by
  refine BitVec.eq_of_getLsbD_eq fun i hi => ?_
  have hcode : s.result.code.getLsbD (11 + i - 4) = false := BitVec.getLsbD_of_ge _ _ (by omega)
  simp [State.statusWord, getLsbD_flagWord, hcode]
  omega

/-- Settles O48: each field of STATUS is shifted to its own bits, so no two of them overlap. -/
theorem statusBitsAsRead : Obligations.StatusBitsAsRead := by
  intro s
  refine ⟨?_, ?_, ?_, ?_, statusWord_extract_code s, ?_, ?_, ?_, statusWord_extract_reserved s⟩ <;>
    simp [State.statusWord, State.busy]

/-! ## The phase (10_state.md R32) -/

/-- From IDLE only a DECODE leads to BUSY. -/
theorem step_busy_of_idle {s t : State} (hp : s.phase = .idle) (h : step s = .next t) (hb : t.phase = .busy) :
    ∃ v rest, s.inputs = .hostWrite 0x008 4 v :: rest ∧ decodeWord v = .ok .decode := by
  obtain ⟨c, hc, heff⟩ := step_effect h
  have hcp : c.phase = .idle := hc.phase.trans hp
  cases heff with
  | startsDecode _ hx hv => exact ⟨_, _, hx, hv⟩
  | resets => cases hb
  | _ => simp [hcp] at hb

/-- From BUSY only the engine's turn and a reset lead to IDLE. -/
theorem step_idle_of_busy {s t : State} (hb : s.phase = .busy) (h : step s = .next t) (hp : t.phase = .idle) :
    s.engineNext ∨ ∃ rest, s.inputs = .assertReset :: rest := by
  obtain ⟨c, hc, heff⟩ := step_effect h
  have hcb : c.phase = .busy := hc.phase.trans hb
  cases heff with
  | completes _ hx => exact .inl hx
  | resets hx => exact .inr ⟨_, hx⟩
  | _ => simp [hcb] at hp

/-- Settles O8: the two inversions above, and for the converses the step of the given input. -/
theorem phaseChangesOnlyByDecodeAndCompletion : Obligations.PhaseChangesOnlyByDecodeAndCompletion := by
  refine ⟨rfl, fun s t h => ⟨fun hp => ⟨step_busy_of_idle hp h, ?_⟩, fun hb => ⟨?_, ?_⟩, ?_⟩⟩
  · rintro ⟨v, rest, hx, hv⟩
    rw [step_decode_idle hp hx hv] at h
    cases h
    rfl
  · exact fun hp => or_assoc.mp (step_idle_of_busy hb h hp)
  · intro hx
    rcases or_assoc.mpr hx with hx | ⟨rest, hx⟩
    · obtain ⟨c, rfl⟩ := step_engineNext_busy hb hx h
      rfl
    · rw [step_assertReset hx] at h
      cases h
      rfl
  · have hbit := (statusBitsAsRead t).1
    rw [State.readReg, hbit, decide_eq_true_iff]

/-! ## The error bits (R41-R43) -/

/-- Settles O9: only the W1C write and reset clear a bit, and each of the other effects raises at most one. -/
theorem errorBitsAreSticky : Obligations.ErrorBitsAreSticky := by
  intro s t h
  obtain ⟨c, ⟨xs, a, fs, rfl⟩, heff⟩ := step_effect h
  cases heff with
  | resets hx => simp [hx]
  | writesStatus hx => simp +contextual [hx]
  | dropsBusy | dropsLocked | reservedWord => simp +contextual
  -- the others keep all three bits
  | keeps | completes | writesCtrl | arms | startsDecode | locks | writesLength | writesIdentity | writesKey
  | writesFrame =>
    simp +contextual [cmdArm, cmdDecodeStart, cmdLockCfg, State.completeDecode]

/-! ## DONE (R37) -/

/-- Only a completion sets DONE. -/
theorem step_sets_done {s t : State} (h : step s = .next t) (hd : s.done = false) (hd' : t.done = true) :
    s.phase = .busy ∧ s.engineNext := by
  obtain ⟨c, ⟨xs, a, fs, rfl⟩, heff⟩ := step_effect h
  cases heff with
  | completes hb hx => exact ⟨hb, hx⟩
  | resets => cases hd'
  | _ => simp [hd] at hd'

/-- DONE is cleared by DECODE, ARM, its W1C write and reset only. -/
theorem step_clears_done {s t : State} (h : step s = .next t) (hd : s.done = true) (hd' : t.done = false) :
    (∃ v rest, s.phase = .idle ∧ s.inputs = .hostWrite 0x008 4 v :: rest ∧
      (decodeWord v = .ok .decode ∨ decodeWord v = .ok .arm)) ∨
    (∃ v rest, s.inputs = .hostWrite 0x004 4 v :: rest ∧ v.getLsbD 1 = true) ∨
    (∃ rest, s.inputs = .assertReset :: rest) := by
  obtain ⟨c, ⟨xs, a, fs, rfl⟩, heff⟩ := step_effect h
  cases heff with
  | startsDecode hp hx hv => exact .inl ⟨_, _, hp, hx, .inl hv⟩
  | arms hp hx hv => exact .inl ⟨_, _, hp, hx, .inr hv⟩
  | resets hx => exact .inr (.inr ⟨_, hx⟩)
  | writesStatus hx => exact .inr (.inl ⟨_, _, hx, by simpa [hd] using hd'⟩)
  | _ => simp [hd] at hd'

/-- Settles O10: the two inversions above, and for the converses the step of the given input. -/
theorem doneIsSetByCompletionOnly : Obligations.DoneIsSetByCompletionOnly := by
  intro s t h
  refine ⟨fun hb hx => ?_, step_sets_done h, step_clears_done h, fun v rest hp hx hv => ?_,
    fun v rest hx hv => ?_, fun rest hx => ?_⟩
  · obtain ⟨c, rfl⟩ := step_engineNext_busy hb hx h
    rfl
  · rcases hv with hv | hv
    · rw [step_decode_idle hp hx hv] at h
      cases h
      rfl
    · rw [step_arm_idle hp hx hv] at h
      cases h
      rfl
  · rw [step_writeStatus hx] at h
    cases h
    simp [hv]
  · rw [step_assertReset hx] at h
    cases h
    rfl

/-! ## The interrupt output (R55, R293) -/

/-- Settles O56: each acknowledgement clears DONE. -/
theorem acknowledgementDropsTheInterrupt : Obligations.AcknowledgementDropsTheInterrupt := by
  intro s
  refine ⟨by simp [State.irq], fun v hv => ?_, fun hp t h => ?_⟩
  · simp [State.irq, hv]
  · rw [exec_arm_idle hp, exec_decode_idle hp] at h
    rcases h with h | h <;> cases h <;> simp [State.irq]

/-! ## Words and their bytes (00_scope.md R15, 10_state.md R46) -/

/-- Byte `k` of a little-endian word is byte `k` of the four it was read from. -/
theorem byteOf_le32 (f : Nat → Byte) (i k : Nat) (hk : k < 4) : byteOf (le32 f i) k = f (i + k) := by
  refine BitVec.eq_of_getLsbD_eq fun j hj => ?_
  interval_cases k <;> simp [byteOf, le32] <;> grind

/-- A word is determined by its bytes. -/
theorem eq_of_byteOf_eq {v w : Word} (h : ∀ k, k < 4 → byteOf v k = byteOf w k) : v = w := by
  refine BitVec.eq_of_getLsbD_eq fun j hj => ?_
  have hbit := congrArg (·.getLsbD (j % 8)) (h (j / 8) (by omega))
  simpa [byteOf, Nat.mod_lt, Nat.div_add_mod] using hbit

theorem le32_eq_iff (f : Nat → Byte) (i : Nat) (v : Word) :
    le32 f i = v ↔ ∀ k, k < 4 → f (i + k) = byteOf v k := by
  constructor
  · rintro rfl k hk
    exact (byteOf_le32 f i k hk).symm
  · exact fun h => eq_of_byteOf_eq fun k hk => (byteOf_le32 f i k hk).trans (h k hk)

/-- `identity[i]` is the byte of IDENTITY at the other end (R46). -/
theorem identityByte_eq_byteOf (v : Word) {i : Nat} (hi : i < 4) : identityByte v i = byteOf v (3 - i) := by
  interval_cases i <;> rfl

/-- Settles O32: the Validator compares the four bytes of the word from the top down. -/
theorem identityMatchIsWordEquality : Obligations.IdentityMatchIsWordEquality := by
  intro v frame
  rw [identityMatches_iff, le32_eq_iff]
  simp (disch := decide) only [identityByte_eq_byteOf]
  constructor
  · rintro ⟨h6, h5, h4, h3⟩ k hk
    interval_cases k
    exacts [h3, h4, h5, h6]
  · exact fun h => ⟨h 3 (by decide), h 2 (by decide), h 1 (by decide), h 0 (by decide)⟩

/-! ## The frame window (R52, R53) -/

theorem setFrameByte_changesFrameOnly {s t : State} (h : t = { s with frame := t.frame }) (i : Nat) (v : Byte) :
    t.setFrameByte i v = { s with frame := (t.setFrameByte i v).frame } := by
  unfold State.setFrameByte
  split
  · exact congrArg (fun x : State => { x with frame := Memory.set t.frame i v }) h
  · exact h

/-- A write of a frame word changes the frame buffer only. -/
theorem setFrameWord_changesFrameOnly (s : State) (w : Fin 32) (v : Word) :
    s.setFrameWord w v = { s with frame := (s.setFrameWord w v).frame } :=
  setFrameByte_changesFrameOnly (setFrameByte_changesFrameOnly (setFrameByte_changesFrameOnly
    (setFrameByte_changesFrameOnly rfl _ _) _ _) _ _) _ _

theorem step_writeFrame_idle {s : State} {rest : List Input} {w : Fin 32} {v : Word} (hp : s.phase = .idle)
    (h : s.inputs = .hostWrite (0x100 + 4 * w.val) 4 v :: rest) :
    step s = .next (((s.consume rest).respond .writeDone).setFrameWord w v) :=
  (step_writeReg (.frame w) h).trans
    (congrArg _ (gateBusy_idle (s := (s.consume rest).respond .writeDone) hp _))

/-- The bytes of a frame word just written: the word's own, with byte 127 still 0 (R53). -/
theorem frameByte_setFrameWord_self (s : State) (w : Fin 32) (v : Word) {k : Nat} (hk : k < 4) :
    (s.setFrameWord w v).frameByte (4 * w.val + k) = if w.val = 31 ∧ k = 3 then 0 else byteOf v k := by
  have hw := w.isLt
  rw [State.frameByte_setFrameWord]
  split
  · next hin => rw [if_neg (by simp only [Config.maxTelegram] at hin; omega), show (4 * w.val + k) % 4 = k by omega]
  · next hout =>
    have h127 : w.val = 31 ∧ k = 3 := by simp only [Config.maxTelegram] at hout; omega
    rw [if_pos h127, State.frameByte_of_le s (by simp only [Config.maxTelegram]; omega)]

theorem byteOf_and_low3 (v : Word) {k : Nat} (hk : k < 4) :
    byteOf (v &&& 0x00FFFFFF) k = if k = 3 then 0 else byteOf v k := by
  refine BitVec.eq_of_getLsbD_eq fun j hj => ?_
  interval_cases k <;> interval_cases j <;> simp [byteOf]

/-- A frame word reads back as written, with byte 127, the top byte of word 31, as 0 (R53). -/
theorem frameWord_setFrameWord (s : State) (w : Fin 32) (v : Word) :
    (s.setFrameWord w v).frameWord w = if w.val = 31 then v &&& 0x00FFFFFF else v := by
  refine (le32_eq_iff _ _ _).mpr fun k hk => ?_
  rw [frameByte_setFrameWord_self s w v hk]
  by_cases hw : w.val = 31
  · rw [if_pos hw, byteOf_and_low3 v hk]
    simp [hw]
  · simp [hw]

/-- Settles O51: the step is the frame-word write, whose bytes and read-back are known. -/
theorem frameWordWriteAndReadBack : Obligations.FrameWordWriteAndReadBack := by
  intro s rest w v hw hp hx
  have hval : (Fin.ofNat 32 w).val = w := Nat.mod_eq_of_lt hw
  refine ⟨_, step_writeFrame_idle (w := Fin.ofNat 32 w) hp (by rw [hval]; exact hx),
    setFrameWord_changesFrameOnly _ _ v, fun i hi => ?_, ?_⟩
  · by_cases hin : i / 4 = w
    · obtain ⟨k, hk, rfl⟩ : ∃ k, k < 4 ∧ i = 4 * w + k := ⟨i % 4, by omega, by omega⟩
      have hself := frameByte_setFrameWord_self ((s.consume rest).respond .writeDone) (Fin.ofNat 32 w) v hk
      rw [hval, if_neg (by omega)] at hself
      rw [hself]
      interval_cases k <;> simp [byteOf]
    · rw [State.frameByte_setFrameWord, hval, if_neg (by omega), if_neg (by omega), if_neg (by omega),
        if_neg (by omega), if_neg (by omega)]
      rfl
  · simpa only [State.readReg, hval] using frameWord_setFrameWord _ (Fin.ofNat 32 w) v

/-! ## Reads and the key (R47) -/

/-- Settles O58: no register that can be read back holds a bit of the key. -/
theorem noReadDependsOnTheKey : Obligations.NoReadDependsOnTheKey := by
  intro s k0 k1 k2 k3 a n
  have hreg : ∀ r, State.readReg { s with key0 := k0, key1 := k1, key2 := k2, key3 := k3 } r = s.readReg r := by
    intro r
    cases r <;> rfl
  have hoff : State.readOffset { s with key0 := k0, key1 := k1, key2 := k2, key3 := k3 } a = s.readOffset a := by
    unfold State.readOffset
    split
    · exact hreg _
    · rfl
  unfold hostRead
  split
  · exact congrArg Answer.readData hoff
  · rfl

/-! ## Reset (R57) -/

/-- Settles O1: no frame byte is written at reset, so each reads as its draw. -/
theorem resetLeavesTheSpecifiedValues : Obligations.ResetLeavesTheSpecifiedValues := by
  refine ⟨rfl, rfl, rfl, rfl, rfl, rfl, rfl, rfl, rfl, rfl, rfl, rfl, rfl, rfl, rfl, rfl, rfl, rfl, rfl, rfl, rfl,
    fun i hi => ?_, ⟨0, rfl⟩, rfl⟩
  simp [State.frameByte, State.reset, hi]

/-! ## The frame bytes a decode reads (10_state.md R56; 41_validator.md R171, 42_decryptor.md R184) -/

/-- What the length check can answer (R182). -/
theorem checkLength_cases (length : Byte) :
    (20 ≤ length.toNat ∧ length.toNat ≤ 127 ∧ checkLength length = .ok (length.toNat - 18)) ∨
    ((length.toNat < 20 ∨ 127 < length.toNat) ∧ checkLength length = .error .malformedLength) := by
  have hc : ciphertextLength length = (length.toNat : Int) - 18 := rfl
  simp only [checkLength, hc, Config.maxTelegram, Config.innerCrcBytes]
  by_cases h : 20 ≤ length.toNat ∧ length.toNat ≤ 127
  · refine .inl ⟨h.1, h.2, ?_⟩
    rw [if_neg (by omega), if_neg (by omega), if_neg (by omega)]
    exact congrArg _ (by omega)
  · refine .inr ⟨by omega, ?_⟩
    split
    · rfl
    · split
      · rfl
      · rw [if_pos (by omega)]

/-- The Validator reads the address field, and only when the telegram is long enough to hold it (R171). -/
theorem validate_congr {identity f g : Nat → Byte} {length : Byte}
    (h : ∀ i, 7 ≤ length.toNat → 3 ≤ i → i < 7 → f i = g i) :
    validate identity f length = validate identity g length := by
  unfold validate
  split
  · rfl
  · next hlen =>
    have h7 : 7 ≤ length.toNat := Nat.not_lt.mp hlen
    have hm : identityMatches identity f = identityMatches identity g := by
      rw [Bool.eq_iff_iff, identityMatches_iff, identityMatches_iff, h 6 h7 (by decide) (by decide),
        h 5 h7 (by decide) (by decide), h 4 h7 (by decide) (by decide), h 3 h7 (by decide) (by decide)]
    rw [hm]

/-- The Decryptor reads the header bytes of the initialization vector and the ciphertext (R184, R185). -/
theorem plaintext_congr {key : Block} {f g : Nat → Byte} {c : Nat}
    (h : ∀ i, (1 ≤ i ∧ i < 9) ∨ i = 10 ∨ (12 ≤ i ∧ (i < 16 ∨ i < 16 + c)) → f i = g i) :
    plaintext key f c = plaintext key g c := by
  have hiv : buildIv f = buildIv g := by
    simp (disch := omega) only [buildIv, h 1, h 2, h 3, h 4, h 5, h 6, h 7, h 8, h 10, h 12, h 13, h 14, h 15]
  have hct : ciphertext f c = ciphertext g c :=
    List.map_congr_left fun k hk => h _ (by have := List.mem_range.mp hk; simp only [Config.headerBytes]; omega)
  unfold plaintext
  rw [hiv, hct]

/-- Two frame buffers that agree on every byte the decode reads have one outcome. -/
theorem decodePipeline_congr {locked : Bool} {key : Block} {identity f g : Nat → Byte} {length : Byte}
    (h : ∀ i, readByDecode length i → f i = g i) :
    decodePipeline locked key identity f length = decodePipeline locked key identity g length := by
  have hval : validate identity f length = validate identity g length :=
    validate_congr fun i h7 hl hu => h i (.inl ⟨h7, hl, hu⟩)
  have hstages : pipelineStages locked key identity f length = pipelineStages locked key identity g length := by
    unfold pipelineStages
    rw [hval]
    rcases checkLength_cases length with ⟨hlo, hhi, e⟩ | ⟨-, e⟩ <;> rw [e]
    · have hplain : plaintext key f (length.toNat - 18) = plaintext key g (length.toNat - 18) :=
        plaintext_congr fun i hi => h i (.inr ⟨hlo, hhi, by omega⟩)
      simp only [except_bind_ok, decryptAndExtract, hplain]
    · simp only [except_bind_error]
  unfold decodePipeline
  rw [hstages]

/-- A telegram that no ciphertext fits in is never accepted. -/
theorem decodePipeline_of_short (locked : Bool) (key : Block) (identity frame : Nat → Byte) {length : Byte}
    (h : length.toNat < 20) :
    (decodePipeline locked key identity frame length).2 = zeroReading ∧
      (decodePipeline locked key identity frame length).1 ≠ .ok := by
  have hlen : checkLength length = .error .malformedLength := by
    rcases checkLength_cases length with ⟨hlo, -, -⟩ | ⟨-, e⟩
    · omega
    · exact e
  unfold decodePipeline pipelineStages
  rw [hlen]
  rcases checkConfig_cases locked with ⟨-, ec⟩ | ⟨-, ec⟩ <;>
    rcases validate_cases identity frame length with ⟨-, -, ev⟩ | ⟨-, ev⟩ <;>
    simp [ec, ev, except_bind_ok, except_bind_error]

/-- Settles O33: the bytes read are those of `readByDecode`; LENGTH 7 and 8 are too short to be accepted. -/
theorem unreadFrameBytesDoNotMatter : Obligations.UnreadFrameBytesDoNotMatter := by
  intro locked key identity f g length
  have hread : length.toNat ≠ 7 → length.toNat ≠ 8 →
      (∀ i, i ≠ 0 → i ≠ 9 → i ≠ 11 → i + 2 < length.toNat → f i = g i) →
        decodePipeline locked key identity f length = decodePipeline locked key identity g length :=
    fun h7 h8 h => decodePipeline_congr fun i hi => h i (by omega) (by omega) (by omega) (by omega)
  refine ⟨decodePipeline_congr, hread, fun h => ?_,
    fun h => decodePipeline_congr fun i hi => h i (by omega) (by omega) (by omega)⟩
  by_cases hlen : length.toNat < 20
  · -- LENGTH 7 and 8 among them
    obtain ⟨hf, hfne⟩ := decodePipeline_of_short locked key identity f hlen
    obtain ⟨hg, hgne⟩ := decodePipeline_of_short locked key identity g hlen
    exact ⟨hf.trans hg.symm, iff_of_false hfne hgne⟩
  · rw [hread (by omega) (by omega) h]
    exact ⟨rfl, Iff.rfl⟩

end Sys2Proof.Machine

/-! SUPPORT, and the statements of 20_memory.md settled. An access the port takes is reduced to the register at its
offset, or to none, once; the statements about reads, writes and gates are then about registers. -/

namespace Sys2Proof.Machine

/-! ## Bus addresses (20_memory.md R72) -/

theorem portOffset_add (base : Nat) {a : Nat} (h : a < 0x1000) : portOffset base (base + a) = some a := by
  simp [portOffset, Config.registerSpace, h]

theorem portOffset_outside {base addr : Nat} (h : addr < base ∨ base + 0x1000 ≤ addr) :
    portOffset base addr = none :=
  if_neg (by simp only [Config.registerSpace]; omega)

/-- Settles O57: inside the 4 KiB the port's offset is the distance from the base, outside there is none. -/
theorem busAddressSelectsTheOffset : Obligations.BusAddressSelectsTheOffset := by
  refine ⟨fun base a n v h => ?_, fun base addr n v h => ?_⟩
  · simp [busInputAt, portOffset_add base h]
  · simp [busInputAt, portOffset_outside h]

/-! ## Which register an offset selects (10_state.md R33) -/

/-- The reserved word offsets of R75. -/
def reservedOffset (a : Nat) : Prop :=
  (0x014 ≤ a ∧ a ≤ 0x01C) ∨ (0x030 ≤ a ∧ a ≤ 0x03C) ∨ (0x050 ≤ a ∧ a ≤ 0x0FC) ∨ (0x180 ≤ a ∧ a ≤ 0xFFC)

/-- The offsets whose writes `gate_busy` guards (R78). -/
def busyGuardedOffset (a : Nat) : Prop :=
  a = 0x008 ∨ a = 0x00C ∨ a = 0x010 ∨ (0x020 ≤ a ∧ a ≤ 0x02C) ∨ (0x100 ≤ a ∧ a ≤ 0x17C)

theorem not_reservedOffset_regOffset (r : Reg) : ¬ reservedOffset (regOffset r) := by
  unfold reservedOffset
  cases r with
  | key j => have := j.isLt; simp only [regOffset]; omega
  | frame w => have := w.isLt; simp only [regOffset, Config.frameWindow]; omega
  | _ => decide

/-- No register occupies a reserved offset (R75). -/
theorem regAt_of_reservedOffset {a : Nat} (h : reservedOffset a) : regAt a = none := by
  cases hr : regAt a with
  | none => rfl
  | some r => exact absurd (regOffset_of_regAt hr ▸ h) (not_reservedOffset_regOffset r)

theorem exists_key_of_offset {a : Nat} (h4 : a % 4 = 0) (h : 0x020 ≤ a ∧ a ≤ 0x02C) :
    ∃ j, a = regOffset (.key j) :=
  ⟨⟨(a - 0x020) / 4, by omega⟩, by simp only [regOffset]; omega⟩

theorem exists_frame_of_offset {a : Nat} (h4 : a % 4 = 0) (h : 0x100 ≤ a ∧ a ≤ 0x17C) :
    ∃ w, a = regOffset (.frame w) :=
  ⟨⟨(a - 0x100) / 4, by omega⟩, by simp only [regOffset, Config.frameWindow]; omega⟩

/-! ## What the port does with an access (R73) -/

theorem accessOk_word {a : Nat} (h4 : a % 4 = 0) (ha : a ≤ 0xFFC) : accessOk a 4 = true :=
  (accessOk_iff a 4).mpr ⟨rfl, h4, ha⟩

theorem accessOk_of_bad {a n : Nat} (h : n ≠ 4 ∨ a % 4 ≠ 0 ∨ a > 0xFFC) : accessOk a n = false := by
  rw [Bool.eq_false_iff, ne_eq, accessOk_iff]
  omega

theorem hostRead_ok {a n : Nat} (h : accessOk a n = true) (s : State) :
    hostRead a n s = s.respond (.readData (s.readOffset a)) := if_pos h

theorem hostRead_refused {a n : Nat} (h : accessOk a n = false) (s : State) :
    hostRead a n s = (s.recordBusError a n).respond (.readBusError 0) := if_neg (by simp [h])

theorem hostWrite_ok {a n : Nat} (h : accessOk a n = true) (v : Word) (s : State) :
    hostWrite a n v s = writeOffset a v (s.respond .writeDone) := if_pos h

theorem hostWrite_refused {a n : Nat} (h : accessOk a n = false) (v : Word) (s : State) :
    hostWrite a n v s = .next ((s.recordBusError a n).respond .writeBusError) := if_neg (by simp [h])

theorem readOffset_of_none {a : Nat} (h : regAt a = none) (s : State) : s.readOffset a = 0 := by
  simp [State.readOffset, h]

theorem writeOffset_of_none {a : Nat} (h : regAt a = none) (v : Word) (s : State) :
    writeOffset a v s = .next s := by
  simp [writeOffset, h]

theorem writeOffset_of_some {a : Nat} {r : Reg} (h : regAt a = some r) (v : Word) (s : State) :
    writeOffset a v s = writeReg r v s := by
  simp [writeOffset, h]

/-- A step that takes a word write in the register space is the write at its offset. -/
theorem step_writeOffset {s : State} {rest : List Input} {a : Nat} {v : Word}
    (hx : s.inputs = .hostWrite a 4 v :: rest) (h4 : a % 4 = 0) (ha : a ≤ 0xFFC) :
    step s = writeOffset a v ((s.consume rest).respond .writeDone) :=
  (step_cons hx).trans (hostWrite_ok (accessOk_word h4 ha) v _)

/-- No read shows the inputs still to come or the port's last answer. -/
theorem readReg_consume (s : State) (rest : List Input) (r : Reg) : (s.consume rest).readReg r = s.readReg r := by
  cases r <;> rfl

/-- A read of a register at its own offset answers its value as read (R76). -/
theorem step_readReg {s : State} {rest : List Input} (r : Reg) (hx : s.inputs = .hostRead (regOffset r) 4 :: rest) :
    step s = .next { s with inputs := rest, answer := .readData (s.readReg r) } := by
  rw [step_cons hx, runInput, hostRead_reg, readReg_consume]
  rfl

/-! ## Reserved offsets (R75) -/

theorem accessOk_of_reservedOffset {a : Nat} (h4 : a % 4 = 0) (h : reservedOffset a) : accessOk a 4 = true :=
  accessOk_word h4 (by unfold reservedOffset at h; omega)

theorem step_read_reserved {s : State} {rest : List Input} {a : Nat} (h4 : a % 4 = 0) (h : reservedOffset a)
    (hx : s.inputs = .hostRead a 4 :: rest) :
    step s = .next { s with inputs := rest, answer := .readData 0 } := by
  rw [step_cons hx, runInput, hostRead_ok (accessOk_of_reservedOffset h4 h),
    readOffset_of_none (regAt_of_reservedOffset h)]
  rfl

theorem step_write_reserved {s : State} {rest : List Input} {a : Nat} {v : Word} (h4 : a % 4 = 0)
    (h : reservedOffset a) (hx : s.inputs = .hostWrite a 4 v :: rest) :
    step s = .next { s with inputs := rest, answer := .writeDone } := by
  rw [step_cons hx, runInput, hostWrite_ok (accessOk_of_reservedOffset h4 h),
    writeOffset_of_none (regAt_of_reservedOffset h)]
  rfl

/-- Settles O54: no register occupies a reserved offset. -/
theorem reservedOffsetsReadZeroIgnoreWrites : Obligations.ReservedOffsetsReadZeroIgnoreWrites :=
  fun _ _ _ _ h4 h => ⟨step_read_reserved h4 h, step_write_reserved h4 h⟩

/-! ## What a read returns (R76) -/

theorem flagWord_eq_ite (b : Bool) : flagWord b = if b then 1 else 0 := by
  cases b <;> rfl

/-- A little-endian word is its four bytes side by side, the highest address first (00_scope.md R15). -/
theorem le32_eq_append (f : Nat → Byte) (i : Nat) :
    le32 f i = f (i + 3) ++ f (i + 2) ++ f (i + 1) ++ f i := by
  refine (le32_eq_iff f i _).mpr fun k hk => BitVec.eq_of_getLsbD_eq fun j hj => ?_
  interval_cases k <;> simp [byteOf] <;> grind

/-- A word of the frame window is its four bytes, with byte 127 as 0 (10_state.md R53). -/
theorem frameWord_eq_append (s : State) (w : Fin 32) :
    s.frameWord w = (if w.val = 31 then 0 else s.frameByte (4 * w.val + 3)) ++ s.frameByte (4 * w.val + 2) ++
      s.frameByte (4 * w.val + 1) ++ s.frameByte (4 * w.val) := by
  rw [State.frameWord, le32_eq_append]
  split
  · next hw => rw [s.frameByte_of_le (i := 4 * w.val + 3) (by simp only [Config.maxTelegram]; omega)]
  · rfl

/-- Settles O47: each offset is that of a register, whose value as read is known, or reserved. -/
theorem memReadReturnsTheRegister : Obligations.MemReadReturnsTheRegister := by
  intro s rest reads
  refine ⟨fun hx => ?_, step_readReg .status, step_readReg .cmd, step_readReg .length, step_readReg .identity,
    step_readReg (.key 0), step_readReg (.key 1), step_readReg (.key 2), step_readReg (.key 3),
    step_readReg .volume, step_readReg .target, step_readReg .info, step_readReg .temp, fun w hw hx => ?_,
    fun a h4 h => step_read_reserved h4 h⟩
  · rw [step_readReg .ctrl hx, State.readReg, State.ctrlWord, flagWord_eq_ite]
  · rw [step_readReg (.frame ⟨w, hw⟩) hx, State.readReg, frameWord_eq_append]

/-! ## Writes that no gate guards (R77) -/

/-- A write of STATUS clears each W1C bit whose written bit is 1 (10_state.md R35). -/
theorem writeStatus_eq (s : State) (v : Word) :
    s.writeStatus v = { s with
      done := if v.getLsbD 1 then false else s.done
      errCmd := if v.getLsbD 8 then false else s.errCmd
      errBusy := if v.getLsbD 9 then false else s.errBusy
      errLocked := if v.getLsbD 10 then false else s.errLocked } := by
  have hclear : ∀ b c : Bool, (b && !c) = if c then false else b := by decide
  unfold State.writeStatus State.clearErrors
  simp only [hclear]
  split <;> rfl

/-- Settles O49: each of these writes is the register's own effect, with no gate before it. -/
theorem unguardedWrites : Obligations.UnguardedWrites := by
  intro s rest v writes
  refine ⟨step_writeReg .ctrl, fun hx => ?_, step_writeReg .volume, step_writeReg .target, step_writeReg .info,
    step_writeReg .temp⟩
  rw [step_writeStatus hx, writeStatus_eq]
  rfl

/-! ## The gates (R78, R79) -/

/-- The registers whose writes `gate_busy` guards (R78). -/
def busyGuarded : Reg → Bool
  | .cmd | .length | .identity | .key _ | .frame _ => true
  | .ctrl | .status | .volume | .target | .info | .temp => false

theorem busyGuarded_iff (r : Reg) : busyGuarded r = true ↔ busyGuardedOffset (regOffset r) := by
  unfold busyGuardedOffset
  cases r with
  | key j => have := j.isLt; simp only [busyGuarded, regOffset, true_iff]; omega
  | frame w => have := w.isLt; simp only [busyGuarded, regOffset, Config.frameWindow, true_iff]; omega
  | _ => decide

/-- Every guarded offset is that of a register. -/
theorem exists_reg_of_busyGuardedOffset {a : Nat} (h4 : a % 4 = 0) (h : busyGuardedOffset a) :
    ∃ r, a = regOffset r := by
  rcases h with rfl | rfl | rfl | h | h
  · exact ⟨.cmd, rfl⟩
  · exact ⟨.length, rfl⟩
  · exact ⟨.identity, rfl⟩
  · obtain ⟨j, e⟩ := exists_key_of_offset h4 h
    exact ⟨.key j, e⟩
  · obtain ⟨w, e⟩ := exists_frame_of_offset h4 h
    exact ⟨.frame w, e⟩

theorem exec_busy {s : State} (hb : s.phase = .busy) (i : Instr) : exec i s = .next s.raiseErrBusy := by
  cases i <;> exact congrArg _ (gateBusy_busy hb _)

/-- Settles O20: each command stands behind `gate_busy`. -/
theorem commandWhileBusyOnlySetsErrBusy : Obligations.CommandWhileBusyOnlySetsErrBusy :=
  fun i _ hb => exec_busy hb i

theorem writeCmd_busy {s : State} (hb : s.phase = .busy) (v : Word) : writeCmd v s = .next s.raiseErrBusy := by
  unfold writeCmd
  split
  · exact exec_busy hb _
  · exact congrArg _ (gateBusy_busy hb _)

/-- In BUSY a guarded write only sets ERR_BUSY (R78). -/
theorem writeReg_busyGuarded {r : Reg} {s : State} (hg : busyGuarded r = true) (hb : s.phase = .busy) (v : Word) :
    writeReg r v s = .next s.raiseErrBusy := by
  cases r with
  | cmd => exact writeCmd_busy hb v
  | length | identity | key | frame => exact congrArg _ (gateBusy_busy hb _)
  | ctrl | status | volume | target | info | temp => cases hg

/-- The W1C write of STATUS sets no ERR_BUSY. -/
theorem errBusy_of_writeStatus {s : State} {v : Word} (h : (s.writeStatus v).errBusy = true) :
    s.errBusy = true := by
  rw [State.writeStatus_errBusy, Bool.and_eq_true] at h
  exact h.1

/-- A write of a register that `gate_busy` does not guard sets no ERR_BUSY. -/
theorem errBusy_of_writeReg {r : Reg} {v : Word} {s t : State} (hg : busyGuarded r = false)
    (h : writeReg r v s = .next t) (ht : t.errBusy = true) : s.errBusy = true := by
  cases r with
  | status => cases h; exact errBusy_of_writeStatus ht
  | ctrl | volume | target | info | temp => cases h; exact ht
  | cmd | length | identity | key | frame => cases hg

/-- Only a write dropped in BUSY sets ERR_BUSY (10_state.md R42). -/
theorem errBusy_of_step_idle {s t : State} (hp : s.phase = .idle) (h : step s = .next t) (ht : t.errBusy = true) :
    s.errBusy = true := by
  obtain ⟨c, ⟨xs, a, fs, rfl⟩, heff⟩ := step_effect h
  cases heff with
  | dropsBusy hb => simp [hp] at hb
  | resets => cases ht
  | writesStatus => exact (errBusy_of_writeStatus ht :)
  | _ => simpa [cmdArm, cmdDecodeStart, cmdLockCfg, State.completeDecode] using ht

/-- A write at an offset that `gate_busy` does not guard sets no ERR_BUSY: the register there is none of the guarded
ones, or there is none. -/
theorem errBusy_of_step_unguarded {s t : State} {rest : List Input} {a : Nat} {v : Word}
    (hx : s.inputs = .hostWrite a 4 v :: rest) (h4 : a % 4 = 0) (ha : a ≤ 0xFFC) (hg : ¬ busyGuardedOffset a)
    (h : step s = .next t) (ht : t.errBusy = true) : s.errBusy = true := by
  rw [step_writeOffset hx h4 ha] at h
  cases hr : regAt a with
  | none =>
    rw [writeOffset_of_none hr] at h
    cases h
    exact ht
  | some r =>
    obtain rfl := regOffset_of_regAt hr
    rw [writeOffset_of_some hr] at h
    have hgr : busyGuarded r = false := Bool.eq_false_iff.mpr fun hgr => hg ((busyGuarded_iff r).mp hgr)
    exact errBusy_of_writeReg (s := (s.consume rest).respond .writeDone) hgr h ht

/-- Settles O52: a guarded offset is that of a guarded register; the two lemmas above say that no other write, and
none in IDLE, sets the bit. -/
theorem busyGateDropsTheWrite : Obligations.BusyGateDropsTheWrite := by
  intro s rest a v hx h4 ha
  have hstep := step_afterInput hx
  refine ⟨fun hg hb => ?_, fun hg => ⟨_, hstep, errBusy_of_step_unguarded hx h4 ha hg hstep⟩,
    fun hp => ⟨_, hstep, errBusy_of_step_idle hp hstep⟩⟩
  obtain ⟨r, rfl⟩ := exists_reg_of_busyGuardedOffset h4 hg
  exact (step_writeReg r hx).trans
    (writeReg_busyGuarded (s := (s.consume rest).respond .writeDone) ((busyGuarded_iff r).mpr hg) hb v)

theorem gateConfig_locked {s : State} (hp : s.phase = .idle) (hl : s.cfgLocked = true) (f : State → State) :
    gateConfig s f = s.raiseErrLocked :=
  (gateBusy_idle hp _).trans (if_pos hl)

theorem gateConfig_unlocked {s : State} (hp : s.phase = .idle) (hl : s.cfgLocked = false) (f : State → State) :
    gateConfig s f = f s :=
  (gateBusy_idle hp _).trans (if_neg (by simp [hl]))

/-- Settles O53: both kinds of register stand behind `gate_lock`. -/
theorem lockGateDropsTheWrite : Obligations.LockGateDropsTheWrite := by
  intro s rest a v hx h4 ha hp hl
  have hdrop : ∀ f, gateConfig ((s.consume rest).respond .writeDone) f = _ := gateConfig_locked hp hl
  rcases ha with rfl | ha
  · exact (step_writeReg .identity hx).trans (congrArg _ (hdrop _))
  · obtain ⟨j, rfl⟩ := exists_key_of_offset h4 ha
    exact (step_writeReg (.key j) hx).trans (congrArg _ (hdrop _))

/-- Settles O50: in IDLE and unlocked both gates let the write through. -/
theorem configurationAndLengthWrites : Obligations.ConfigurationAndLengthWrites := by
  intro s rest v hp writes
  refine ⟨fun hx => (step_writeReg .length hx).trans
    (congrArg _ (gateBusy_idle (s := (s.consume rest).respond .writeDone) hp _)), fun hl => ?_⟩
  have hpass : ∀ f, gateConfig ((s.consume rest).respond .writeDone) f = _ := gateConfig_unlocked hp hl
  have hkey : ∀ j, s.inputs = .hostWrite (regOffset (.key j)) 4 v :: rest →
      step s = .next (((s.consume rest).respond .writeDone).setKey j v) :=
    fun j hx => (step_writeReg (.key j) hx).trans (congrArg _ (hpass _))
  exact ⟨fun hx => (step_writeReg .identity hx).trans (congrArg _ (hpass _)), hkey 0, hkey 1, hkey 2, hkey 3⟩

/-! ## The recorded bus errors (R73) -/

/-- No effect of a step on the registers touches the record. -/
theorem StepEffect.faults {s c t : State} (h : StepEffect s c t) : t.faults = c.faults := by
  cases h <;> simp [cmdArm, cmdDecodeStart, cmdLockCfg, State.completeDecode]

theorem writeReg_faults {r : Reg} {v : Word} {s t : State} (h : writeReg r v s = .next t) : t.faults = s.faults :=
  (writeReg_effect (s := { s with inputs := [.hostWrite (regOffset r) 4 v] }) ⟨s.inputs, s.answer, s.faults, rfl⟩
    rfl h).faults

/-- What a host access adds to the record. -/
def recordedFaults (a n : Nat) : List Fault := if accessOk a n then [] else [.busError a n]

theorem hostRead_faults (a n : Nat) (s : State) : (hostRead a n s).faults = s.faults ++ recordedFaults a n := by
  unfold hostRead recordedFaults
  split <;> simp

theorem hostWrite_faults {a n : Nat} {v : Word} {s t : State} (h : hostWrite a n v s = .next t) :
    t.faults = s.faults ++ recordedFaults a n := by
  cases hok : accessOk a n with
  | false =>
    rw [hostWrite_refused hok] at h
    cases h
    simp [recordedFaults, hok]
  | true =>
    rw [hostWrite_ok hok] at h
    cases hr : regAt a with
    | none =>
      rw [writeOffset_of_none hr] at h
      cases h
      simp [recordedFaults, hok]
    | some r =>
      rw [writeOffset_of_some hr] at h
      simpa [recordedFaults, hok] using writeReg_faults h

theorem runEngine_faults (s : State) : s.runEngine.faults = s.faults := by
  rcases runEngine_cases s with ⟨-, e⟩ | ⟨-, e⟩ <;> simp [e, State.completeDecode]

/-- What an input adds to the record: a refused access its bus error, any other input nothing. -/
def recordedByInput : Input → List Fault
  | .hostRead a n | .hostWrite a n _ => recordedFaults a n
  | .engineTurn | .assertReset => []

theorem step_faults {s t : State} {x : Input} {rest : List Input} (hx : s.inputs = x :: rest)
    (h : step s = .next t) : t.faults = s.faults ++ recordedByInput x := by
  rw [step_cons hx] at h
  cases x with
  | hostRead a n => cases h; exact hostRead_faults a n (s.consume rest)
  | hostWrite a n v => exact hostWrite_faults (s := s.consume rest) h
  | engineTurn => cases h; simp [recordedByInput, runEngine_faults]
  | assertReset => cases h; simp [recordedByInput]

/-- Settles O55: a step appends to the record what its input adds, which for an aligned word access is nothing. -/
theorem busErrorIsRecordedAndNeverCleared : Obligations.BusErrorIsRecordedAndNeverCleared := by
  refine ⟨fun s rest a n v hbad => ⟨fun hx => ?_, fun hx => ?_⟩, fun s t h => ?_, fun s t rest a v h4 ha hx h => ?_⟩
  · rw [step_cons hx, runInput, hostRead_refused (accessOk_of_bad hbad)]
    rfl
  · rw [step_cons hx, runInput, hostWrite_refused (accessOk_of_bad hbad)]
    rfl
  · cases hi : s.inputs with
    | nil =>
      rw [step_nil hi] at h
      cases h
      exact ⟨[], by simp [runEngine_faults]⟩
    | cons x rest => exact ⟨_, step_faults hi h⟩
  · have hnone : recordedFaults a 4 = [] := if_pos (accessOk_word h4 ha)
    rcases hx with hx | hx <;> simpa [recordedByInput, hnone] using step_faults hx h

end Sys2Proof.Machine

/-! SUPPORT, and the statements of 30_encoding.md settled. A command word is read by its two fields once; a host script
is reduced once to its transactions in program order, and the two loads follow from what each of their writes does. -/

namespace Sys2Proof.Machine

/-! ## Command words (30_encoding.md R100-R104) -/

theorem commandWord_statement (i : Instr) : Laws.CommandWord.Statement i := by
  cases i
  exacts [Laws.CommandWord.nop, Laws.CommandWord.arm, Laws.CommandWord.decode, Laws.CommandWord.lockCfg]

@[simp] theorem mbzField_encode (i : Instr) : mbzField (encode i) = 0#24 :=
  have ⟨_, hmbz, _, _⟩ := commandWord_statement i
  hmbz

@[simp] theorem opcodeField_encode (i : Instr) : opcodeField (encode i) = i.opcode :=
  have ⟨_, _, hopcode, _⟩ := commandWord_statement i
  hopcode

@[simp] theorem decodeWord_encode (i : Instr) : decodeWord (encode i) = .ok i :=
  have ⟨_, _, _, hdecode⟩ := commandWord_statement i
  hdecode

/-- The two fields make up the word (R100). -/
theorem mbzField_append_opcodeField (v : Word) : mbzField v ++ opcodeField v = v := by
  have hjoin : v.extractLsb' 8 24 ++ v.extractLsb' 0 8 = v.extractLsb' 0 32 :=
    BitVec.extractLsb'_append_extractLsb'_eq_extractLsb' rfl
  exact hjoin.trans BitVec.extractLsb'_eq_self

/-- A word is the command word of `i` exactly when its MBZ field is zero and its opcode is that of `i` (R100). -/
theorem eq_encode_iff (v : Word) (i : Instr) : v = encode i ↔ mbzField v = 0#24 ∧ opcodeField v = i.opcode := by
  constructor
  · rintro rfl
    exact ⟨mbzField_encode i, opcodeField_encode i⟩
  · rintro ⟨hm, ho⟩
    rw [← mbzField_append_opcodeField v, ← mbzField_append_opcodeField (encode i), hm, ho, mbzField_encode,
      opcodeField_encode]

/-- The opcodes of the map are the four below 0x04 (R102). -/
theorem opcode_lt (i : Instr) : i.opcode.toNat < 0x04 := by
  cases i <;> decide

/-- What the decoder can answer (R101): the command whose word it is, or the reason why the word is reserved. -/
theorem decodeWord_cases (v : Word) :
    (mbzField v ≠ 0#24 ∧ decodeWord v = .error .mbzNotZero) ∨
    (∃ i, v = encode i ∧ decodeWord v = .ok i) ∨
    (mbzField v = 0#24 ∧ 0x04 ≤ (opcodeField v).toNat ∧ decodeWord v = .error .opcodeReserved) := by
  unfold decodeWord
  split
  · next hm => exact .inl ⟨hm, rfl⟩
  next hm =>
  have hcommand : ∀ i : Instr, opcodeField v = i.opcode → v = encode i := fun i ho =>
    (eq_encode_iff v i).mpr ⟨not_not.mp hm, ho⟩
  right
  split
  · next ho => exact .inl ⟨.nop, hcommand .nop ho, rfl⟩
  split
  · next ho => exact .inl ⟨.arm, hcommand .arm ho, rfl⟩
  split
  · next ho => exact .inl ⟨.decode, hcommand .decode ho, rfl⟩
  split
  · next ho => exact .inl ⟨.lockCfg, hcommand .lockCfg ho, rfl⟩
  · exact .inr ⟨not_not.mp hm, by bv_omega, rfl⟩

/-- No two commands share a word. -/
theorem encode_inj {i j : Instr} : encode i = encode j ↔ i = j :=
  ⟨fun h => by simpa using congrArg decodeWord h, congrArg encode⟩

/-- Settles O12: each of the decoder's three answers excludes the fields of the other two. -/
theorem eachCommandHasExactlyOneWord : Obligations.EachCommandHasExactlyOneWord := by
  intro w
  change (∀ i, decodeWord w = .ok i ↔ w = encode i) ∧ (decodeWord w = .error .mbzNotZero ↔ mbzField w ≠ 0#24) ∧
    (decodeWord w = .error .opcodeReserved ↔ mbzField w = 0#24 ∧ 0x04 ≤ (opcodeField w).toNat)
  rcases decodeWord_cases w with ⟨hm, hd⟩ | ⟨i, rfl, -⟩ | ⟨hm, ho, hd⟩
  · simp [hd, hm, eq_encode_iff]
  · simp [opcode_lt, encode_inj]
  · have hno : ∀ i : Instr, opcodeField w ≠ i.opcode := fun i e => absurd (opcode_lt i) (by rw [← e]; omega)
    simp [hd, hm, ho, hno, eq_encode_iff]

/-- Which words are reserved (R104). -/
theorem decodeWord_error_iff (v : Word) :
    (∃ e, decodeWord v = .error e) ↔ mbzField v ≠ 0#24 ∨ 0x04 ≤ (opcodeField v).toNat := by
  rcases decodeWord_cases v with ⟨hm, hd⟩ | ⟨i, rfl, -⟩ | ⟨-, ho, hd⟩
  · simp [hd, hm]
  · simp [opcode_lt]
  · simp [hd, ho]

/-- In IDLE a reserved word only sets ERR_CMD (R104). -/
theorem writeCmd_reserved_idle {s : State} {v : Word} {e : DecodeError} (hp : s.phase = .idle)
    (hd : decodeWord v = .error e) : writeCmd v s = .next s.raiseErrCmd := by
  simp [writeCmd, hd, gateBusy_idle hp]

/-- Settles O15: the write is `writeCmd` of a word with no command, behind `gate_busy`. -/
theorem reservedWordSetsOneErrorBit : Obligations.ReservedWordSetsOneErrorBit := by
  intro s rest v
  refine ⟨decodeWord_error_iff v, fun hres hx => ?_⟩
  obtain ⟨e, hd⟩ := (decodeWord_error_iff v).mpr hres
  have hstep : step s = writeCmd v ((s.consume rest).respond .writeDone) := step_writeReg .cmd hx
  exact ⟨fun hp => hstep.trans (writeCmd_reserved_idle (s := (s.consume rest).respond .writeDone) hp hd),
    fun hb => hstep.trans (writeCmd_busy (s := (s.consume rest).respond .writeDone) hb v)⟩

/-! ## Command words as bytes (20_memory.md R80) -/

/-- The four bytes of a word put together again. -/
theorem wordOfBytes_byteOf (v : Word) : wordOfBytes (byteOf v 0) (byteOf v 1) (byteOf v 2) (byteOf v 3) = v :=
  (le32_eq_iff (byteOf v) 0 v).mpr fun k _ => by rw [Nat.zero_add]

/-- The bytes of a word decode as the word does, and the bytes after them are left. -/
theorem decodeBytes_bytesOfWord (v : Word) (rest : List Byte) :
    decodeBytes (bytesOfWord v ++ rest) = (decodeWord v).map (·, rest) := by
  simp only [bytesOfWord, List.cons_append, List.nil_append, decodeBytes, wordOfBytes_byteOf]
  cases decodeWord v <;> rfl

/-- Settles O11: the bytes decode as their word does. -/
theorem decodeOfEncodeIsTheCommand : Obligations.DecodeOfEncodeIsTheCommand := by
  intro i rest
  rw [encodeBytes, decodeBytes_bytesOfWord, decodeWord_encode]
  rfl

/-- A row of the opcode table is read as the word of its low `nbits` bits (R102). -/
theorem decodeTableWord_eq (nbits w : Nat) : decodeTableWord nbits w = (decodeWord (tableWord nbits w)).toOption := by
  have hbytes := decodeBytes_bytesOfWord (tableWord nbits w) []
  rw [List.append_nil] at hbytes
  rw [decodeTableWord, hbytes]
  cases decodeWord (tableWord nbits w) <;> rfl

/-- Settles O13: each row is its word's command, or none. -/
theorem opcodeMapWordsDecode : Obligations.OpcodeMapWordsDecode := by
  simp only [Obligations.OpcodeMapWordsDecode, decodeTableWord_eq]
  decide

/-! ## The writes of a host script (30_encoding.md R106, R107) -/

theorem SameBlock.length {a b : State} (h : SameBlock a b) : a.length = b.length :=
  congrArg State.length (a₁ := a.consume []) (a₂ := b.consume []) h

theorem SameBlock.key {a b : State} (h : SameBlock a b) : a.key = b.key :=
  congrArg State.key (a₁ := a.consume []) (a₂ := b.consume []) h

theorem SameBlock.frameByte {a b : State} (h : SameBlock a b) (i : Nat) : a.frameByte i = b.frameByte i :=
  congrArg (State.frameByte · i) (a₁ := a.consume []) (a₂ := b.consume []) h

theorem SameRegisters.frameByte {c s : State} (h : SameRegisters c s) (i : Nat) : c.frameByte i = s.frameByte i := by
  obtain ⟨xs, a, fs, rfl⟩ := h
  rfl

/-- Only a write of CMD can take an idle block out of IDLE (10_state.md R32). -/
theorem afterInput_write_phase {s : State} {a : Nat} {v : Word} (hp : s.phase = .idle) (ha : a ≠ 0x008) :
    (s.afterInput (.hostWrite a 4 v)).phase = .idle := by
  cases hb : (s.afterInput (.hostWrite a 4 v)).phase with
  | idle => rfl
  | busy =>
    obtain ⟨_, _, hx, -⟩ := step_busy_of_idle (s := { s with inputs := [.hostWrite a 4 v] }) hp
      (step_afterInput rfl) hb
    cases hx
    exact absurd rfl ha

/-- A script of writes, none of them to CMD, leaves an idle block as its writes in program order do, in every
schedule (log entry 12). -/
theorem run_withScript_writes {s : State} {script : List Stmt} (movers : List Mover) (hs : s.phase = .idle)
    (hw : ∀ h ∈ scriptSteps script, ∃ a v, h = .write a v ∧ a ≠ 0x008) :
    ∃ t, (s.withScript script movers).run (s.withScript script movers).inputs.length = .next t ∧ t.inputs = [] ∧
      SameBlock t (((scriptSteps script).map stepInput).foldl State.afterInput s) := by
  refine ⟨_, run_inputs _ s, rfl, foldl_scheduledInputs_of_idle (scriptSteps script) (fun h hh => ?_) movers s hs⟩
  obtain ⟨a, v, rfl, ha⟩ := hw h hh
  exact ⟨nofun, fun s' hs' => afterInput_write_phase hs' ha⟩

theorem afterInput_of_runInput {s t : State} {x : Input} (h : runInput x (s.consume []) = .next t) :
    s.afterInput x = t := by
  rw [State.afterInput, h]

/-- A `wr` of a register does to the block what the write of the register does (20_memory.md R77). -/
theorem afterInput_wrReg {s t : State} {r : Reg} {v : Word}
    (h : writeReg r v ((s.consume []).respond .writeDone) = .next t) :
    s.afterInput (stepInput (wrReg r v)) = t :=
  afterInput_of_runInput ((hostWrite_reg r v _).trans h)

/-- Byte `i` of a sequence is its byte in the word that `ldkey` and `ldframe` pack it in (R107). -/
theorem byteOf_packWord (bytes : List Byte) (i : Nat) :
    byteOf (packWord bytes (i / 4)) (i % 4) = byteAt bytes i := by
  rw [packWord, byteOf_le32 _ _ _ (Nat.mod_lt _ (by decide)), Nat.div_add_mod]

/-! ## `ldkey` (R107) -/

theorem afterInput_wrKey {s : State} (hp : s.phase = .idle) (hl : s.cfgLocked = false) (j : Fin 4) (v : Word) :
    s.afterInput (stepInput (wrReg (.key j) v)) = ((s.consume []).respond .writeDone).setKey j v :=
  afterInput_wrReg (congrArg _ (gateConfig_unlocked (s := (s.consume []).respond .writeDone) hp hl _))

/-- Key byte `k` is byte `k mod 4` of KEY`<k div 4>` (10_state.md R47). -/
theorem byte_key (s : State) {k : Nat} (hk : k < 16) :
    Block.byte s.key k = byteOf (s.keyWord ⟨k / 4, by omega⟩) (k % 4) := by
  interval_cases k <;> rfl

/-- The four writes of `ldkey` in program order leave the packed words in the KEY registers. -/
theorem keyWord_foldl_ldkey {s : State} (hp : s.phase = .idle) (hl : s.cfgLocked = false) (key : List Byte)
    (j : Fin 4) :
    (((ldkeySteps key).map stepInput).foldl State.afterInput s).keyWord j = packWord key j := by
  simp only [ldkeySteps, List.map_cons, List.map_nil, List.foldl_cons, List.foldl_nil, afterInput_wrKey, hp, hl,
    State.setKey_phase, State.setKey_cfgLocked, State.respond_phase, State.respond_cfgLocked, State.consume_phase,
    State.consume_cfgLocked, State.setKey_keyWord]
  fin_cases j <;> rfl

/-- Settles O59: the schedule plays no part, and each key byte is its byte of the packed word. -/
theorem ldkeyLoadsTheKeyBytes : Obligations.LdkeyLoadsTheKeyBytes := by
  intro s key movers hp hl _
  have hwrites : ∀ h ∈ scriptSteps [.ldkey key], ∃ a v, h = .write a v ∧ a ≠ 0x008 := by
    simp [scriptSteps, Stmt.steps, ldkeySteps, wrReg, regOffset]
  obtain ⟨t, hrun, hin, hsame⟩ := run_withScript_writes movers hp hwrites
  refine ⟨t, hrun, hin, fun k hk => ?_⟩
  have hsteps : scriptSteps [.ldkey key] = ldkeySteps key := List.append_nil _
  rw [hsame.key, hsteps, byte_key _ hk, keyWord_foldl_ldkey hp hl, byteOf_packWord]

/-! ## `ldframe` (R107) -/

/-- A write beyond the frame window changes no register: the offset is reserved or the access is refused (20_memory.md
R73, R75). -/
theorem hostWrite_beyondWindow {a : Nat} (h4 : a % 4 = 0) (ha : 0x180 ≤ a) (v : Word) (s : State) :
    ∃ t, hostWrite a 4 v s = .next t ∧ SameRegisters t s := by
  have hself : SameRegisters s s := ⟨s.inputs, s.answer, s.faults, rfl⟩
  by_cases hspace : a ≤ 0xFFC
  · have hnone : regAt a = none := regAt_of_reservedOffset (.inr (.inr (.inr ⟨ha, hspace⟩)))
    exact ⟨_, (hostWrite_ok (accessOk_word h4 hspace) v s).trans (writeOffset_of_none hnone v _), hself.respond _⟩
  · exact ⟨_, hostWrite_refused (accessOk_of_bad (by omega)) v s, (hself.recordBusError _ _).respond _⟩

/-- Which bytes a `wr FRAME<w>` changes in IDLE, and to what; with no FRAME register of that number, none (log entry
17). -/
theorem frameByte_afterInput_wrFrame {s : State} (hp : s.phase = .idle) (w : Nat) (v : Word) {i : Nat} (hi : i < 127) :
    (s.afterInput (stepInput (wrFrame w v))).frameByte i = if i / 4 = w then byteOf v (i % 4) else s.frameByte i := by
  by_cases hw : w < 32
  · have hwrite : s.afterInput (stepInput (wrFrame w v)) =
        ((s.consume []).respond .writeDone).setFrameWord ⟨w, hw⟩ v :=
      afterInput_wrReg (r := .frame ⟨w, hw⟩)
        (congrArg _ (gateBusy_idle (s := (s.consume []).respond .writeDone) hp _))
    rw [hwrite, State.frameByte_setFrameWord]
    simp [Config.maxTelegram, hi]
  · obtain ⟨t, hrun, hsame⟩ := hostWrite_beyondWindow (a := Config.frameWindow + 4 * w)
      (by simp only [Config.frameWindow]; omega) (by simp only [Config.frameWindow]; omega) v (s.consume [])
    have hafter : s.afterInput (stepInput (wrFrame w v)) = t := afterInput_of_runInput hrun
    rw [hafter, if_neg (by omega), hsame.frameByte]
    rfl

/-- The block after FRAME0 to FRAME`<m-1>` have been written with the given words, in this order. -/
def State.afterFrameWrites (s : State) (word : Nat → Word) (m : Nat) : State :=
  (((List.range m).map fun w => wrFrame w (word w)).map stepInput).foldl State.afterInput s

theorem afterFrameWrites_succ (s : State) (word : Nat → Word) (m : Nat) :
    s.afterFrameWrites word (m + 1) = (s.afterFrameWrites word m).afterInput (stepInput (wrFrame m (word m))) := by
  simp [State.afterFrameWrites, List.range_succ]

theorem afterFrameWrites_phase {s : State} (hp : s.phase = .idle) (word : Nat → Word) (m : Nat) :
    (s.afterFrameWrites word m).phase = .idle := by
  induction m with
  | zero => exact hp
  | succ m ih =>
    rw [afterFrameWrites_succ]
    exact afterInput_write_phase ih (by simp only [Config.frameWindow]; omega)

/-- The frame buffer holds the bytes of the words written, and beyond them what it held. -/
theorem frameByte_afterFrameWrites {s : State} (hp : s.phase = .idle) (word : Nat → Word) (m : Nat) {i : Nat}
    (hi : i < 127) :
    (s.afterFrameWrites word m).frameByte i = if i < 4 * m then byteOf (word (i / 4)) (i % 4) else s.frameByte i := by
  induction m with
  | zero => rfl
  | succ m ih =>
    rw [afterFrameWrites_succ, frameByte_afterInput_wrFrame (afterFrameWrites_phase hp word m) m (word m) hi, ih]
    by_cases hm : i / 4 = m
    · rw [if_pos hm, if_pos (by omega), hm]
    · have hlt : i < 4 * (m + 1) ↔ i < 4 * m := by omega
      simp only [hm, hlt, if_false]

theorem afterInput_wrLength {s : State} (hp : s.phase = .idle) (v : Word) :
    s.afterInput (stepInput (wrReg .length v)) = ((s.consume []).respond .writeDone).setLength v :=
  afterInput_wrReg (congrArg _ (gateBusy_idle (s := (s.consume []).respond .writeDone) hp _))

/-- `ldframe` writes FRAME words and LENGTH only. -/
theorem ldframeSteps_writes (bytes : List Byte) : ∀ h ∈ ldframeSteps bytes, ∃ a v, h = .write a v ∧ a ≠ 0x008 := by
  intro h hh
  rcases List.mem_append.mp hh with hh | hh
  · obtain ⟨w, -, rfl⟩ := List.mem_map.mp hh
    exact ⟨_, _, rfl, by simp only [Config.frameWindow]; omega⟩
  · obtain rfl := List.mem_singleton.mp hh
    exact ⟨_, _, rfl, by decide⟩

/-- The writes of `ldframe` in program order: the FRAME words, and LENGTH last. -/
theorem foldl_ldframe {s : State} (hp : s.phase = .idle) (bytes : List Byte) :
    ((ldframeSteps bytes).map stepInput).foldl State.afterInput s =
      (((s.afterFrameWrites (packWord bytes) ((bytes.length + 3) / 4)).consume []).respond .writeDone).setLength
        (BitVec.ofNat 32 bytes.length) := by
  rw [ldframeSteps, List.map_append, List.foldl_append]
  exact afterInput_wrLength (afterFrameWrites_phase hp _ _) _

/-- Settles O60: the schedule plays no part; the FRAME writes leave the packed bytes, and the write of LENGTH keeps
them. -/
theorem ldframeLoadsTheTelegram : Obligations.LdframeLoadsTheTelegram := by
  intro s bytes movers hp
  have hsteps : scriptSteps [.ldframe bytes] = ldframeSteps bytes := List.append_nil _
  obtain ⟨t, hrun, hin, hsame⟩ := run_withScript_writes movers hp (hsteps ▸ ldframeSteps_writes bytes)
  rw [hsteps, foldl_ldframe hp] at hsame
  refine ⟨t, hrun, hin, ?_, hsame.phase.trans (afterFrameWrites_phase hp _ _), fun i hi => ?_⟩
  · rw [hsame.length, State.setLength_length]
    simp
  · have hframe := frameByte_afterFrameWrites hp (packWord bytes) ((bytes.length + 3) / 4) hi
    rw [byteOf_packWord] at hframe
    exact (hsame.frameByte i).trans hframe

end Sys2Proof.Machine

/-! SUPPORT, and the statements of 40_commands.md settled. Each command is its effect behind `gate_busy`, said once for
all four; a completion is the record update of its outcome, said once, and the outcome depends on the key and the
identity only through their bytes. -/

namespace Sys2Proof.Machine

/-! ## The four commands (R130-R141) -/

/-- The effect of a command that `gate_busy` lets through. -/
def commandEffect : Instr → State → State
  | .nop => cmdNop
  | .arm => cmdArm
  | .decode => cmdDecodeStart
  | .lockCfg => cmdLockCfg

theorem exec_eq_gateBusy (i : Instr) (s : State) : exec i s = .next (gateBusy s (commandEffect i)) := by
  cases i <;> rfl

theorem exec_idle {s : State} (hp : s.phase = .idle) (i : Instr) : exec i s = .next (commandEffect i s) := by
  rw [exec_eq_gateBusy, gateBusy_idle hp]

/-- What a given command can do: its effect in IDLE, ERR_BUSY in BUSY (20_memory.md R78). -/
theorem exec_next_cases {i : Instr} {s t : State} (h : exec i s = .next t) :
    (s.phase = .idle ∧ t = commandEffect i s) ∨ (s.phase = .busy ∧ t = s.raiseErrBusy) := by
  rw [exec_eq_gateBusy] at h
  cases h
  exact gateBusy_cases s (commandEffect i)

/-- Settles O21: neither effect touches the frame buffer, and in BUSY only ERR_BUSY changes. -/
theorem nopAndLockCfgFrame : Obligations.NopAndLockCfgFrame := by
  refine fun s t => ⟨fun h => ?_, fun h => ?_⟩ <;> rcases exec_next_cases h with ⟨-, rfl⟩ | ⟨-, rfl⟩
  all_goals exact ⟨rfl, fun _ => rfl⟩

/-- Settles O22: both sides read 0 at and above byte 127, and a dropped command stores no byte. -/
theorem armFrame : Obligations.ArmFrame := by
  intro s t h
  refine ⟨?_, fun i hi => ?_, fun hb i => ?_⟩
  · rcases exec_next_cases h with ⟨-, rfl⟩ | ⟨-, rfl⟩ <;> rfl
  · rw [t.frameByte_of_le hi, s.frameByte_of_le hi]
  · rw [exec_busy hb] at h
    cases h
    exact s.raiseErrBusy_frameByte i

/-- Settles O23: the start clears the result state and the scratch, and in BUSY only ERR_BUSY changes. -/
theorem decodeStartFrame : Obligations.DecodeStartFrame := by
  intro s t h
  rcases exec_next_cases h with ⟨-, rfl⟩ | ⟨-, rfl⟩
  all_goals exact ⟨rfl, fun _ => rfl⟩

/-- Settles O14: a row of the opcode table decodes as its word, which `withFetchWord` puts before the inputs. -/
theorem stepRunsTheDecodedCommand : Obligations.StepRunsTheDecodedCommand := by
  refine ⟨fun s rest v i hx hd => step_writeCmd hx hd, fun s nbits w i hd => ?_⟩
  have hword : decodeWord (tableWord nbits w) = .ok i := by
    rw [decodeTableWord_eq] at hd
    cases hres : decodeWord (tableWord nbits w) with
    | ok j => simpa [hres, Except.toOption] using hd
    | error e => simp [hres, Except.toOption] at hd
  exact step_writeCmd (s := s.withFetchWord nbits w) (rest := s.inputs) rfl hword

/-- Settles O16: 0x00000100 has MBZ bits set, so its write is that of a reserved word. -/
theorem nopCompletesUnchanged : Obligations.NopCompletesUnchanged := by
  refine ⟨decodeWord_encode .nop, by decide, fun s => ⟨fun hp => exec_idle hp .nop, fun hb => exec_busy hb .nop,
    fun hp rest hx => ?_⟩⟩
  obtain ⟨-, hreserved⟩ := reservedWordSetsOneErrorBit s rest 0x00000100
  obtain ⟨hidle, -⟩ := hreserved (.inl (by decide)) hx
  exact hidle hp

/-- With every field that ARM clears already cleared, a second ARM finds nothing to change (R136). -/
theorem cmdArm_cmdArm (s : State) : cmdArm (cmdArm s) = cmdArm s := rfl

/-- Settles O17: every frame byte reads 0 after `clearFrame`, and `irq` needs DONE. -/
theorem armClearsForANewTelegram : Obligations.ArmClearsForANewTelegram := by
  refine ⟨decodeWord_encode .arm, fun s hp => ⟨cmdArm s, exec_arm_idle hp, rfl, fun i _ => ?_, ?_, ?_⟩⟩
  · simp [cmdArm]
  · simp [State.irq]
  · rw [exec_arm_idle ((cmdArm_phase s).trans hp), cmdArm_cmdArm]

/-- Settles O18: setting a bit that is 1 changes nothing. -/
theorem lockCfgSetsTheLock : Obligations.LockCfgSetsTheLock := by
  refine ⟨decodeWord_encode .lockCfg, fun s hp => ⟨exec_idle hp .lockCfg, fun hl => ?_⟩⟩
  have hsame : cmdLockCfg s = s := by
    rw [cmdLockCfg, State.lockConfig, ← hl]
  exact (exec_idle hp .lockCfg).trans (congrArg _ hsame)

/-- Settles O19: the start leaves LENGTH and the frame buffer, and `irq` needs DONE. -/
theorem decodeStartClearsAndBecomesBusy : Obligations.DecodeStartClearsAndBecomesBusy := by
  refine ⟨decodeWord_encode .decode, fun s hp => ⟨cmdDecodeStart s, exec_decode_idle hp, rfl, ?_, ?_, rfl,
    fun _ => rfl⟩⟩
  · simp [State.irq]
  · simp [State.busy]

/-! ## The engine's turn (R152) -/

theorem runEngine_idle {s : State} (h : s.phase = .idle) : s.runEngine = s := by
  simp [State.runEngine, h]

/-- The engine's turn, as an input or with none left, on the inputs that then remain (log entry 1). -/
theorem step_engineTurn {s : State} {rest : List Input}
    (hx : s.inputs = .engineTurn :: rest ∨ (s.inputs = [] ∧ rest = [])) :
    step s = .next (s.consume rest).runEngine := by
  rcases hx with hx | ⟨hx, rfl⟩
  · exact step_cons hx
  · exact step_nil hx

/-- Settles O25: in IDLE the engine has no step to take. -/
theorem idleEngineTurnChangesNothing : Obligations.IdleEngineTurnChangesNothing := by
  intro s rest hx hp
  rw [step_engineTurn hx, runEngine_idle (s := s.consume rest) hp]
  rfl

/-- TEMP holds the two temperatures side by side (10_state.md R51). -/
theorem tempWord_eq_append (ambient flow : Byte) :
    ambient.setWidth 16 <<< 8 ||| flow.setWidth 16 = (ambient ++ flow : Half) := by
  rw [BitVec.append_def, BitVec.shiftLeftZeroExtend_eq, BitVec.setWidth'_eq]

/-- A completion whose outcome is known, register by register (R152). -/
theorem completeDecode_of_outcome {s : State} {code : ResultCode} {rd : Reading}
    (h : s.decodeOutcome = (code, rd)) :
    s.completeDecode = { s with
      volume := rd.volume, target := rd.target, info := rd.infoCode
      temp := rd.ambientTemperature ++ rd.flowTemperature
      result := code, valid := decide (code = .ok), done := true, phase := .idle
      scratch := Config.freeScratch s.draws, draws := s.draws + 1 } := by
  rw [State.completeDecode, h, ← tempWord_eq_append]
  rfl

/-! ## The outcome of a decode (R150, R153) -/

theorem decodePipeline_zeroReading {locked : Bool} {key : Block} {identity frame : Nat → Byte} {length : Byte}
    (h : (decodePipeline locked key identity frame length).1 ≠ .ok) :
    (decodePipeline locked key identity frame length).2 = zeroReading := by
  rcases decodePipeline_cases locked key identity frame length with ⟨rd, -, e⟩ | ⟨code, -, e⟩
  · exact absurd (congrArg Prod.fst e) h
  · rw [e]

/-- Settles O29: the completion posts the reading that comes with the code. -/
theorem failurePostsTheZeroReading : Obligations.FailurePostsTheZeroReading := by
  refine ⟨fun _ _ _ _ _ h => decodePipeline_zeroReading h, fun s h => ?_⟩
  have hcode : s.decodeOutcome.1 ≠ .ok := h
  have houtcome : s.decodeOutcome = (s.decodeOutcome.1, zeroReading) := Prod.ext rfl (decodeOutcome_zeroReading hcode)
  rw [completeDecode_of_outcome houtcome]
  exact ⟨decide_eq_false hcode, rfl, rfl, rfl, rfl⟩

/-- A block is determined by its sixteen bytes (43_aes128.md R201). -/
theorem eq_of_byte_eq {a b : Block} (h : ∀ k, k < 16 → Block.byte a k = Block.byte b k) : a = b := by
  have hload : ∀ c : Block, c = Block.load (Block.byte c) := fun _ => rfl
  rw [hload a, hload b]
  simp (disch := decide) only [Block.load, h]

/-- The Validator reads the four identity bytes (R171), and no other stage reads any. -/
theorem decodePipeline_identity_congr {locked : Bool} {key : Block} {a b frame : Nat → Byte} {length : Byte}
    (h : ∀ i, i < 4 → a i = b i) :
    decodePipeline locked key a frame length = decodePipeline locked key b frame length := by
  have hmatch : identityMatches a frame = identityMatches b frame := by
    rw [Bool.eq_iff_iff, identityMatches_iff, identityMatches_iff]
    simp (disch := decide) only [h]
  simp only [decodePipeline, pipelineStages, validate, hmatch]

/-- Settles O24: the key and identity bytes are those of the registers, so the pipeline's answer is the outcome. -/
theorem completionPostsThePipelineOutcome : Obligations.CompletionPostsThePipelineOutcome := by
  intro s rest hx hb key identity code rd hkey hid hrun
  obtain rfl : key = s.key := eq_of_byte_eq fun k hk => by
    have hcolumn : Fin.ofNat 4 (k / 4) = ⟨k / 4, by omega⟩ := Fin.ext (Nat.mod_eq_of_lt (by omega))
    rw [hkey k hk, hcolumn, byte_key s hk, byteOf]
  have houtcome : (s.consume rest).decodeOutcome = (code, rd) :=
    (decodePipeline_identity_congr fun i hi => (hid i hi).symm).trans hrun
  rw [step_engineTurn hx, runEngine_busy (s := s.consume rest) hb, completeDecode_of_outcome houtcome]
  rfl

end Sys2Proof.Machine

/-! SUPPORT, and the statement of 41_validator.md R174 settled: the Validator's rejection, then the pipeline's. -/

namespace Sys2Proof.Machine

/-- The Validator rejects an address other than IDENTITY, and a telegram too short to hold one (R171, R172). -/
theorem validate_foreign {v : Word} {frame : Nat → Byte} {length : Byte}
    (h : le32 frame 3 ≠ v ∨ length.toNat < 7) :
    validate (identityByte v) frame length = .error .identityMismatch := by
  rcases validate_cases (identityByte v) frame length with ⟨hlong, hmatch, -⟩ | ⟨-, e⟩
  · have hword : le32 frame 3 = v := (identityMatchIsWordEquality v frame).mp hmatch
    exact absurd h (not_or.mpr ⟨not_not_intro hword, Nat.not_lt.mpr hlong⟩)
  · exact e

/-- Once the configuration check passes, the Validator's rejection is the outcome (40_commands.md R150). -/
theorem decodePipeline_locked_of_validate_error {key : Block} {identity frame : Nat → Byte} {length : Byte}
    {code : ResultCode} (h : validate identity frame length = .error code) :
    decodePipeline true key identity frame length = (code, zeroReading) := by
  have hstages : pipelineStages true key identity frame length = .error code := by
    rw [pipelineStages, checkConfig, if_pos rfl, h, except_bind_ok, except_bind_error]
  rw [decodePipeline, hstages]

/-- A foreign or too short telegram has one outcome, whatever its other bytes (R174). -/
theorem decodeOutcome_foreign {s : State} (h : le32 s.frameByte 3 ≠ s.identity ∨ s.length.toNat < 7) :
    s.decodeOutcome = (if s.cfgLocked then .identityMismatch else .notConfigured, zeroReading) := by
  unfold State.decodeOutcome
  cases s.cfgLocked with
  | true => exact decodePipeline_locked_of_validate_error (validate_foreign h)
  | false => exact decodePipeline_unlocked _ _ _ _

/-- Settles O31: the completion posts the outcome of a foreign telegram, whose code is not OK. -/
theorem foreignTelegramIsRejected : Obligations.ForeignTelegramIsRejected := by
  intro s rest hx hb hforeign
  have hrejected : (if s.cfgLocked then ResultCode.identityMismatch else .notConfigured) ≠ .ok := by
    split <;> decide
  refine ⟨_, step_engineTurn (.inl hx), ?_⟩
  rw [runEngine_busy (s := s.consume rest) hb,
    completeDecode_of_outcome (decodeOutcome_foreign (s := s.consume rest) hforeign)]
  exact ⟨decide_eq_false hrejected, rfl⟩

end Sys2Proof.Machine

/-! SUPPORT, and the statements of 42_decryptor.md settled. The counter is a big-endian number, whose lowest byte an
increment changes alone while it does not carry; CTR decryption is one pass over the bytes, each XORed with its byte of
the keystream. -/

namespace Sys2Proof.Machine

/-! ## The counter blocks (R187) -/

/-- The low byte of a big-endian number grown by one byte is that byte. -/
theorem extractLsb'_shiftLeft_or_low (n : BitVec 128) (x : Byte) :
    (n <<< 8 ||| x.setWidth 128).extractLsb' 0 8 = x := by
  ext i hi
  have h128 : i < 128 := by omega
  simp [hi, h128]

/-- A big-endian number grown by one byte has its earlier bytes one place higher. -/
theorem extractLsb'_shiftLeft_or_high (n : BitVec 128) (x : Byte) {p : Nat} (h8 : 8 ≤ p) (hp : p ≤ 120) :
    (n <<< 8 ||| x.setWidth 128).extractLsb' p 8 = n.extractLsb' (p - 8) 8 := by
  ext i hi
  have hx : x.getLsbD (p + i) = false := BitVec.getLsbD_of_ge _ _ (by omega)
  have h128 : p + i < 128 := by omega
  have hlow : ¬ p + i < 8 := by omega
  have hsub : p + i - 8 = p - 8 + i := by omega
  simp [hx, h128, hlow, hsub, -BitVec.getLsbD_eq_getElem]

/-- `to_bytes_be16` undoes `from_bytes_be16`. -/
theorem blockOfNumber_blockToNumber (b : Block) : blockOfNumber (blockToNumber b) = b := by
  simp (disch := decide) only [blockOfNumber, Block.load, blockToNumber, Block.toList, Column.toList,
    List.cons_append, List.nil_append, List.foldl_cons, List.foldl_nil, Nat.reduceSub, Nat.reduceMul,
    extractLsb'_shiftLeft_or_low, extractLsb'_shiftLeft_or_high]

/-- A block with byte 15 replaced. -/
def withLastByte (b : Block) (x : Byte) : Block := { b with c3 := { b.c3 with r3 := x } }

/-- Below 0xFF the increment of a byte does not wrap. -/
theorem setWidth_add_one {x : Byte} (h : x ≠ 0xFF) : (x + 1).setWidth 128 = x.setWidth 128 + 1 := by
  bv_omega

/-- Adding 1 to a big-endian number stays within its last byte while that byte is below 0xFF. -/
theorem shiftLeft_or_add_one (n : BitVec 128) {x : Byte} (h : x ≠ 0xFF) :
    n <<< 8 ||| (x + 1).setWidth 128 = (n <<< 8 ||| x.setWidth 128) + 1 := by
  have hadd : ∀ y : Byte, n <<< 8 ||| y.setWidth 128 = n <<< 8 + y.setWidth 128 := fun y => by
    refine (BitVec.add_eq_or_of_and_eq_zero _ _ ?_).symm
    ext i hi
    simpa using fun h8 _ => BitVec.getLsbD_of_ge y i h8
  rw [hadd, hadd, setWidth_add_one h, BitVec.add_assoc]

/-- While byte 15 is not 0xFF, the increment does not carry. -/
theorem inc128_of_last_ne {b : Block} (h : b.c3.r3 ≠ 0xFF) : inc128 b = withLastByte b (b.c3.r3 + 1) := by
  have hnumber : blockToNumber (withLastByte b (b.c3.r3 + 1)) = blockToNumber b + 1 := shiftLeft_or_add_one _ h
  rw [inc128, ← hnumber, blockOfNumber_blockToNumber]

/-- Settles O37, by induction on `j`: before each increment byte 15 is below 0xFF. -/
theorem counterChangesOnlyTheLastByte : Obligations.CounterChangesOnlyTheLastByte := by
  intro iv j h0 hj
  change counterBlock iv j = withLastByte iv (BitVec.ofNat 8 j)
  induction j with
  | zero => exact congrArg (withLastByte iv) h0
  | succ j ih =>
    have hne : BitVec.ofNat 8 j ≠ 0xFF := by bv_omega
    rw [counterBlock, ih (by omega), inc128_of_last_ne hne]
    exact congrArg (withLastByte iv) (BitVec.ofNat_add j 1).symm

/-! ## The keystream (R188) -/

/-- Byte `t` of the keystream: byte `t mod 16` of keystream block `t div 16`. -/
def keystreamByte (key iv : Block) (t : Nat) : Byte := Block.byte (keystreamBlock key iv (t / 16)) (t % 16)

theorem toList_eq_map_byte (b : Block) : Block.toList b = (List.range 16).map (Block.byte b) := rfl

/-- At most 16 bytes XORed with keystream block `j`. -/
theorem zipWith_keystreamBlock (key iv : Block) (j : Nat) {bytes : List Byte} (h : bytes.length ≤ 16) :
    List.zipWith (fun x k => x ^^^ k) bytes (Block.toList (keystreamBlock key iv j)) =
      bytes.mapIdx (fun t x => x ^^^ keystreamByte key iv (16 * j + t)) := by
  have hlen : (List.zipWith (fun x k => x ^^^ k) bytes (Block.toList (keystreamBlock key iv j))).length =
      bytes.length := by simp [toList_eq_map_byte, h]
  refine List.ext_getElem (by rw [hlen, List.length_mapIdx]) fun t ht _ => ?_
  have ht16 : t < 16 := lt_of_lt_of_le (hlen ▸ ht) h
  have hdiv : (16 * j + t) / 16 = j := by omega
  have hmod : t % 16 = t := Nat.mod_eq_of_lt ht16
  simp [toList_eq_map_byte, keystreamByte, hdiv, hmod]

/-- The blocks of `ctrFrom` together are one pass over the bytes, from byte `16 * j` of the keystream on. -/
theorem ctrFrom_eq_mapIdx (key iv : Block) (j n : Nat) (ct : List Byte) (h : ct.length ≤ 16 * n) :
    ctrFrom key iv j n ct = ct.mapIdx (fun t x => x ^^^ keystreamByte key iv (16 * j + t)) := by
  induction n generalizing j ct with
  | zero =>
    obtain rfl : ct = [] := List.length_eq_zero_iff.mp (by omega)
    rfl
  | succ n ih =>
    have hrest : (ct.drop 16).length ≤ 16 * n := by rw [List.length_drop]; omega
    rw [ctrFrom, zipWith_keystreamBlock key iv j (List.length_take_le 16 ct), ih _ _ hrest]
    rcases Nat.le_total ct.length 16 with hshort | hlong
    · rw [List.drop_eq_nil_of_le hshort, List.take_of_length_le hshort, List.mapIdx_nil, List.append_nil]
    · conv_rhs => rw [← List.take_append_drop 16 ct, List.mapIdx_append, List.length_take_of_le hlong]
      have hshift : ∀ t, 16 * (j + 1) + t = 16 * j + (t + 16) := fun t => by omega
      simp only [hshift]

/-- CTR decryption XORs each byte with its byte of the keystream. -/
theorem ctrDecrypt_eq_mapIdx (key iv : Block) (ct : List Byte) :
    ctrDecrypt key iv ct = ct.mapIdx (fun t x => x ^^^ keystreamByte key iv t) := by
  rw [ctrDecrypt, ctrFrom_eq_mapIdx key iv 0 _ ct (by omega)]
  simp only [Nat.mul_zero, Nat.zero_add]

/-- Settles O38: the one pass, read byte by byte. -/
theorem ctrDecryptIsBytewiseXor : Obligations.CtrDecryptIsBytewiseXor := by
  intro key iv ct
  rw [ctrDecrypt_eq_mapIdx]
  refine ⟨List.length_mapIdx, fun t ht => ?_⟩
  simp [byteAt, ht, keystreamByte, keystreamBlock]

/-- Settles O39: each byte is XORed twice with one keystream byte. -/
theorem ctrRoundTrip : Obligations.CtrRoundTrip := by
  intro key iv x
  rw [ctrDecrypt_eq_mapIdx, ctrDecrypt_eq_mapIdx]
  exact List.ext_getElem (by simp) fun t _ _ => by
    simp only [List.getElem_mapIdx, BitVec.xor_assoc, BitVec.xor_self, BitVec.xor_zero]

/-! ## The length check and the initialization vector (R182, R185) -/

/-- Settles O35: the two cases of the length check. -/
theorem lengthCheckPassesFrom20To127 : Obligations.LengthCheckPassesFrom20To127 := by
  intro length
  rcases checkLength_cases length with ⟨hlo, hhi, e⟩ | ⟨hout, e⟩
  · rw [e, if_pos ⟨hlo, hhi⟩]
  · rw [e, if_neg (by omega)]

/-- The sequence-number field `F[12..16)` stands in bytes 9 to 12 of the initialization vector. -/
theorem byte_buildIv_sequence (f : Nat → Byte) {i : Nat} (h12 : 12 ≤ i) (h16 : i < 16) :
    Block.byte (buildIv f) (i - 3) = f i := by
  interval_cases i <;> rfl

/-- Settles O36: the sixteen bytes agree one by one, and the sequence-number field can be read off the vector. -/
theorem ivIsBuiltFromTheHeader : Obligations.IvIsBuiltFromTheHeader := by
  refine ⟨fun f => rfl, fun f g h i h12 h16 => ?_⟩
  rw [← byte_buildIv_sequence f h12 h16, h, byte_buildIv_sequence g h12 h16]

end Sys2Proof.Machine

/-! SUPPORT, and the statements of 43_aes128.md settled. The key schedule in the order of its words grows at its end, so
its recurrence is an induction on its words; the SBOX table is checked entry by entry. -/

namespace Sys2Proof.Machine

/-! ## The key schedule (R205) -/

/-- The words `w[0..n + 4)` of the key schedule, in order. -/
def scheduleWords (key : Block) (n : Nat) : List Column := (scheduleRev key n).reverse

theorem keySchedule_eq_scheduleWords (key : Block) : keySchedule key = scheduleWords key 40 := rfl

theorem length_scheduleRev (key : Block) (n : Nat) : (scheduleRev key n).length = n + 4 := by
  induction n with
  | zero => rfl
  | succ n ih => rw [scheduleRev, List.length_cons, ih, Nat.add_right_comm]

theorem length_scheduleWords (key : Block) (n : Nat) : (scheduleWords key n).length = n + 4 := by
  rw [scheduleWords, List.length_reverse, length_scheduleRev]

/-- The `j`-th newest of the words is `w[n + 3 - j]`. -/
theorem getD_scheduleRev (key : Block) {n j : Nat} (hj : j < 4) :
    (scheduleRev key n).getD j default = (scheduleWords key n).getD (n + 3 - j) default := by
  have hlen := length_scheduleRev key n
  rw [scheduleWords, List.getD_reverse _ (by omega), hlen]
  exact congrArg ((scheduleRev key n).getD · default) (by omega)

/-- The next word is made of the one four before it and the one before it. -/
theorem scheduleWords_succ (key : Block) (n : Nat) :
    scheduleWords key (n + 1) = scheduleWords key n ++
      [Column.xor ((scheduleWords key n).getD n default)
        (scheduleMix (n + 4) ((scheduleWords key n).getD (n + 3) default))] := by
  rw [scheduleWords, scheduleRev, List.reverse_cons, getD_scheduleRev key (by decide),
    getD_scheduleRev key (by decide)]
  rfl

/-- A word of the schedule stays when a word is added. -/
theorem getD_scheduleWords_succ (key : Block) {n i : Nat} (h : i < n + 4) :
    (scheduleWords key (n + 1)).getD i default = (scheduleWords key n).getD i default := by
  rw [scheduleWords_succ, List.getD_append _ _ _ _ (by rwa [length_scheduleWords])]

theorem getD_scheduleWords_of_lt (key : Block) (n : Nat) {i : Nat} (h : i < 4) :
    (scheduleWords key n).getD i default = Block.col key i := by
  induction n with
  | zero => interval_cases i <;> rfl
  | succ n ih => rw [getD_scheduleWords_succ key (by omega), ih]

/-- R205's recurrence, by induction on the number of words: it holds of the word added, and adding one changes no
earlier word. -/
theorem getD_scheduleWords_of_le (key : Block) (n : Nat) {i : Nat} (h4 : 4 ≤ i) (h : i < n + 4) :
    (scheduleWords key n).getD i default =
      Column.xor ((scheduleWords key n).getD (i - 4) default)
        (scheduleMix i ((scheduleWords key n).getD (i - 1) default)) := by
  induction n with
  | zero => omega
  | succ n ih =>
    rw [getD_scheduleWords_succ key (i := i - 4) (by omega), getD_scheduleWords_succ key (i := i - 1) (by omega)]
    obtain hold | rfl : i < n + 4 ∨ i = n + 4 := by omega
    · rw [getD_scheduleWords_succ key hold, ih hold]
    · rw [scheduleWords_succ, List.getD_append_right _ _ _ _ (length_scheduleWords key n).le, length_scheduleWords,
        Nat.sub_self]
      rfl

/-- Settles O42: the words in order, grown to 44. -/
theorem keyScheduleRecurrence : Obligations.KeyScheduleRecurrence := by
  intro key
  rw [keySchedule_eq_scheduleWords]
  exact ⟨length_scheduleWords key 40, fun _ h => getD_scheduleWords_of_lt key 40 h,
    fun _ h4 h => getD_scheduleWords_of_le key 40 h4 h⟩

/-! ## SubBytes (R203) -/

/-- Entry `b` of the SBOX table is the one its definition gives, by a check of each of the 256 bytes; the same 254th
power is its inverse. -/
theorem sbox_eq_sboxAffine_and_gfMul_gfInv (b : Byte) :
    sbox b = sboxAffine (gfInv b) ∧ (b ≠ 0 → gfMul b (gfInv b) = 1) := by
  revert b
  decide +kernel

theorem byte_subBytes (b : Block) {k : Nat} (hk : k < 16) :
    Block.byte (subBytes b) k = sbox (Block.byte b k) := by
  interval_cases k <;> rfl

/-- Settles O40: the checked table, and SubBytes byte by byte. -/
theorem sboxTableIsItsDefinition : Obligations.SboxTableIsItsDefinition :=
  ⟨fun b => (sbox_eq_sboxAffine_and_gfMul_gfInv b).1, fun b => (sbox_eq_sboxAffine_and_gfMul_gfInv b).2,
    by decide +kernel, by decide, by decide, fun b _ hk => byte_subBytes b hk⟩

/-! ## ShiftRows (R204) -/

/-- Settles O41: the sixteen bytes agree one by one. -/
theorem shiftRowsRotatesEachRow : Obligations.ShiftRowsRotatesEachRow := by
  intro b r c hr hc
  interval_cases r <;> interval_cases c <;> rfl

end Sys2Proof.Machine

/-! SUPPORT, and the statements of 44_integrity.md settled. For a given bit the CRC's register step loses nothing, as the
polynomial is odd, and it is linear: so one flipped bit makes a difference, which no later byte can undo. -/

namespace Sys2Proof.Machine

/-! ## One bit and one byte of the CRC (44_integrity.md R233) -/

/-- The bit that decides whether the polynomial is added. -/
def crcFeedback (crc : Half) (bit : Bool) : Bool := crc.msb ^^ bit

theorem and_0x8000_ne_zero (c : Half) : (c &&& 0x8000 != 0) = c.msb := by
  have htop : c &&& 0x8000 = bif c.msb then BitVec.twoPow 16 15 else 0 := by
    rw [show (0x8000 : Half) = BitVec.twoPow 16 15 from rfl, BitVec.and_twoPow, BitVec.msb_eq_getLsbD_last]
    cases c.getLsbD 15 <;> rfl
  rw [htop]
  cases c.msb <;> rfl

theorem crcBit_eq (c : Half) (bit : Bool) :
    crcBit c bit = c <<< 1 ^^^ (if crcFeedback c bit then Config.crcPoly else 0) := by
  rw [crcBit, and_0x8000_ne_zero, ← crcFeedback]
  split <;> simp

/-- Bit 0 of the new register is the feedback, since the polynomial is odd. -/
theorem getLsbD_zero_crcBit (c : Half) (bit : Bool) : (crcBit c bit).getLsbD 0 = crcFeedback c bit := by
  rw [crcBit_eq]
  cases crcFeedback c bit <;> simp [Config.crcPoly]

/-- A register is its top bit and what a shift leaves of it. -/
theorem eq_of_msb_of_shiftLeft_one {c c' : Half} (hmsb : c.msb = c'.msb) (hshift : c <<< 1 = c' <<< 1) : c = c' := by
  rw [BitVec.msb_eq_decide, BitVec.msb_eq_decide, decide_eq_decide] at hmsb
  bv_omega

theorem crcBit_injective (bit : Bool) : Function.Injective (crcBit · bit) := by
  intro c c' h
  have hfeedback : crcFeedback c bit = crcFeedback c' bit := by
    rw [← getLsbD_zero_crcBit, ← getLsbD_zero_crcBit]
    exact congrArg (·.getLsbD 0) h
  have hshift : c <<< 1 = c' <<< 1 := by
    simpa only [crcBit_eq, hfeedback, BitVec.xor_left_inj] using h
  exact eq_of_msb_of_shiftLeft_one (Bool.xor_left_inj.mp hfeedback) hshift

/-- A fold whose every step is injective in the accumulator is so as a whole. -/
theorem foldl_injective {α β : Type} {f : β → α → β} (hf : ∀ x, Function.Injective (f · x)) (l : List α) :
    Function.Injective (l.foldl f ·) := by
  induction l with
  | nil => exact Function.injective_id
  | cons x l ih => exact ih.comp (hf x)

theorem crcByte_injective (b : Byte) : Function.Injective (crcByte · b) :=
  foldl_injective (fun k => crcBit_injective (b.getLsbD k)) _

theorem crcBit_xor (c c' : Half) (bit bit' : Bool) :
    crcBit (c ^^^ c') (bit ^^ bit') = crcBit c bit ^^^ crcBit c' bit' := by
  have hfeedback : crcFeedback (c ^^^ c') (bit ^^ bit') = (crcFeedback c bit ^^ crcFeedback c' bit') := by
    simp only [crcFeedback, BitVec.msb_xor, Bool.xor_assoc, Bool.xor_left_comm]
  have hmask : ∀ x y : Bool, (if (x ^^ y) then Config.crcPoly else 0) =
      (if x then Config.crcPoly else 0) ^^^ (if y then Config.crcPoly else 0) := by decide
  rw [crcBit_eq, crcBit_eq, crcBit_eq, hfeedback, hmask, BitVec.shiftLeft_xor_distrib]
  ac_rfl

theorem crcByte_xor (c c' : Half) (b b' : Byte) :
    crcByte (c ^^^ c') (b ^^^ b') = crcByte c b ^^^ crcByte c' b' := by
  simp only [crcByte, List.foldl_cons, List.foldl_nil, BitVec.getLsbD_xor, crcBit_xor]

theorem xor_ne_self {w : Nat} (x : BitVec w) {e : BitVec w} (he : e ≠ 0) : x ^^^ e ≠ x :=
  fun h => he ((BitVec.xor_right_inj x).mp (h.trans BitVec.xor_zero.symm))

/-- A flipped bit changes the register by what that bit alone makes of the register 0 (R236). -/
theorem crcByte_flip_ne (c : Half) (b : Byte) {k : Nat} (hk : k < 8) :
    crcByte c (b ^^^ (1#8 <<< k)) ≠ crcByte c b := by
  have hsyndrome : crcByte 0 (1#8 <<< k) ≠ 0 := by
    interval_cases k <;> decide
  calc crcByte c (b ^^^ (1#8 <<< k))
      = crcByte (c ^^^ 0) (b ^^^ (1#8 <<< k)) := by rw [BitVec.ofNat_eq_ofNat, BitVec.xor_zero]
    _ = crcByte c b ^^^ crcByte 0 (1#8 <<< k) := crcByte_xor c 0 b _
    _ ≠ crcByte c b := xor_ne_self _ hsyndrome

/-! ## The checksum (R233, R235) -/

theorem crc16_zero_cons (d : List Byte) : crc16 (0x00 :: d) = crc16 d := by
  have hstays : crcByte Config.crcInit 0x00 = Config.crcInit := by decide
  rw [crc16, List.foldl_cons, hstays, ← crc16]

/-- Settles O43: the register starts at 0, and a zero byte leaves it 0. -/
theorem checksumIgnoresLeadingZeros : Obligations.ChecksumIgnoresLeadingZeros := by
  refine ⟨rfl, fun n d => ?_⟩
  induction n with
  | zero => rfl
  | succ n ih => rw [List.replicate_succ, List.cons_append, crc16_zero_cons, ih]

/-- The difference one flipped bit makes is lost in no later byte (R236). -/
theorem foldl_crcByte_flip_ne {d : List Byte} {i k : Nat} (hi : i < d.length) (hk : k < 8) (c : Half) :
    (d.set i (byteAt d i ^^^ (1#8 <<< k))).foldl crcByte c ≠ d.foldl crcByte c := by
  induction d generalizing c i with
  | nil => exact absurd hi (Nat.not_lt_zero i)
  | cons b d ih =>
    cases i with
    | zero => exact (foldl_injective crcByte_injective d).ne (crcByte_flip_ne c b hk)
    | succ i => exact ih (Nat.lt_of_succ_lt_succ hi) (crcByte c b)

theorem crc16_flip_ne {d : List Byte} {i k : Nat} (hi : i < d.length) (hk : k < 8) :
    crc16 (d.set i (byteAt d i ^^^ (1#8 <<< k))) ≠ crc16 d :=
  fun h => foldl_crcByte_flip_ne hi hk _ (BitVec.not_inj.mp h)

/-! ## The check (R231, R232, R234) -/

/-- The stored checksum is its two bytes, high byte first (R231). -/
theorem crcRead_cons_cons (a b : Byte) (region : List Byte) : crcRead (a :: b :: region) = b ++ a := by
  rw [← tempWord_eq_append, BitVec.or_comm]
  rfl

/-- The stored checksum determines its two bytes. -/
theorem crcRead_cons_cons_inj {a b a' b' : Byte} {region region' : List Byte}
    (h : crcRead (a :: b :: region) = crcRead (a' :: b' :: region')) : a = a' ∧ b = b' := by
  rw [crcRead_cons_cons, crcRead_cons_cons] at h
  constructor
  · simpa only [BitVec.extractLsb'_append_eq_right] using congrArg (·.extractLsb' 0 8) h
  · simpa only [BitVec.extractLsb'_append_eq_left] using congrArg (·.extractLsb' 8 8) h

/-- The checksummed region of the whole plaintext is all that follows the stored checksum (R232). -/
theorem crcRegion_cons_cons {a b : Byte} {region : List Byte} {c : Nat} (hc : c = (a :: b :: region).length) :
    crcRegion (a :: b :: region) c = region := by
  rw [crcRegion, hc, List.take_length]
  rfl

theorem checkIntegrity_eq_ok_iff (p : List Byte) (c : Nat) :
    checkIntegrity p c = .ok () ↔ crc16 (crcRegion p c) = crcRead p := by
  obtain ⟨hcrc, hcheck⟩ | ⟨hcrc, hcheck⟩ := checkIntegrity_cases p c <;> simp [hcrc, hcheck]

theorem checkIntegrity_eq_checksumMismatch_iff (p : List Byte) (c : Nat) :
    checkIntegrity p c = .error .checksumMismatch ↔ crc16 (crcRegion p c) ≠ crcRead p := by
  obtain ⟨hcrc, hcheck⟩ | ⟨hcrc, hcheck⟩ := checkIntegrity_cases p c <;> simp [hcrc, hcheck]

theorem byte_flip_ne (b : Byte) {k : Nat} (hk : k < 8) : b ^^^ (1#8 <<< k) ≠ b :=
  xor_ne_self b (by interval_cases k <;> decide)

/-- The first two bytes are the stored checksum, which the flip changes with the region as it was; a flip behind them
changes the region's checksum with the stored one as it was. -/
theorem crc16_crcRegion_flip_ne_crcRead {p : List Byte} {i k : Nat} (hp : 2 ≤ p.length) (hi : i < p.length)
    (hk : k < 8) (h : crc16 (crcRegion p p.length) = crcRead p) :
    crc16 (crcRegion (p.set i (byteAt p i ^^^ (1#8 <<< k))) p.length) ≠
      crcRead (p.set i (byteAt p i ^^^ (1#8 <<< k))) := by
  match p, i, hp, hi with
  | a :: b :: region, 0, _, _ =>
    exact fun h' => byte_flip_ne a hk (crcRead_cons_cons_inj (h'.symm.trans h)).1
  | a :: b :: region, 1, _, _ =>
    exact fun h' => byte_flip_ne b hk (crcRead_cons_cons_inj (h'.symm.trans h)).2
  | a :: b :: region, i + 2, _, hi =>
    rw [crcRegion_cons_cons rfl] at h
    rw [List.set_cons_succ, List.set_cons_succ, crcRegion_cons_cons (by simp)]
    exact fun h' => crc16_flip_ne (by simpa using hi) hk (h'.trans h.symm)

/-- Settles O44: a flip in the region changes what is computed, a flip of the stored checksum what it is compared to. -/
theorem checksumDetectsEverySingleBitFlip : Obligations.ChecksumDetectsEverySingleBitFlip := by
  refine ⟨fun d i k hi hk => crc16_flip_ne hi hk, fun p i k hp hi hk hcheck => ?_⟩
  rw [checkIntegrity_eq_ok_iff] at hcheck
  rw [checkIntegrity_eq_checksumMismatch_iff]
  exact crc16_crcRegion_flip_ne_crcRead hp hi hk hcheck

end Sys2Proof.Machine

/-! SUPPORT, and the statements of 45_extractor.md settled. A layout's fields end below its least `C`, so the extractor
reads no byte at or past `C`; its four answers, each under its own condition, then give both statements. -/

namespace Sys2Proof.Machine

/-! ## The layouts (45_extractor.md R252, R253) -/

theorem layoutOf_compact {m : Byte} (h : m = 0x79) : layoutOf m = some compactLayout := by
  subst h; rfl

theorem layoutOf_long {m : Byte} (h : m = 0x78) : layoutOf m = some longLayout := by
  subst h; rfl

theorem layoutOf_unknown {m : Byte} (hcompact : m ≠ 0x79) (hlong : m ≠ 0x78) : layoutOf m = none := by
  rw [layoutOf, if_neg hcompact, if_neg hlong]

/-- The marker and every field of the layout lie below its least `C`. -/
structure Layout.Fits (lay : Layout) : Prop where
  marker : 3 ≤ lay.need
  vol : lay.vol + 4 ≤ lay.need
  tgt : lay.tgt + 4 ≤ lay.need
  info : lay.info + 2 ≤ lay.need
  flow : lay.flow < lay.need
  amb : lay.amb < lay.need

theorem layoutOf_fits {m : Byte} {lay : Layout} (h : layoutOf m = some lay) : lay.Fits := by
  by_cases hcompact : m = 0x79
  · obtain rfl : compactLayout = lay := Option.some.inj ((layoutOf_compact hcompact).symm.trans h)
    constructor <;> decide
  by_cases hlong : m = 0x78
  · obtain rfl : longLayout = lay := Option.some.inj ((layoutOf_long hlong).symm.trans h)
    constructor <;> decide
  · cases (layoutOf_unknown hcompact hlong).symm.trans h

/-! ## The bytes a field is read from (R255-R259) -/

theorem le32_congr {f g : Nat → Byte} {i n : Nat} (h : ∀ k, k < n → f k = g k) (hi : i + 4 ≤ n) :
    le32 f i = le32 g i :=
  (le32_eq_iff f i _).mpr fun k hk => (h (i + k) (by omega)).trans (byteOf_le32 g i k hk).symm

theorem le16_congr {f g : Nat → Byte} {i n : Nat} (h : ∀ k, k < n → f k = g k) (hi : i + 2 ≤ n) :
    le16 f i = le16 g i := by
  rw [le16, le16, h i (by omega), h (i + 1) (by omega)]

theorem readFields_congr {p q : List Byte} {lay : Layout} (hfits : lay.Fits)
    (h : ∀ i, i < lay.need → byteAt p i = byteAt q i) : readFields p lay = readFields q lay := by
  rw [readFields, readFields, le32_congr h hfits.vol, le32_congr h hfits.tgt, le16_congr h hfits.info,
    h _ hfits.flow, h _ hfits.amb]

/-! ## The extractor's answer in each case (R251, R253, R254) -/

section
variable {p : List Byte} {c : Nat} {lay : Layout}

theorem extract_of_lt_three (h : c < 3) : extract p c = .error .shortRecord := by
  obtain ⟨-, e⟩ | ⟨h3, -⟩ | ⟨-, h3, -⟩ | ⟨-, h3, -⟩ := extract_cases p c
  · exact e
  all_goals exact absurd h (Nat.not_lt.mpr h3)

theorem extract_of_unknown (hl : layoutOf (byteAt p 2) = none) (h : 3 ≤ c) :
    extract p c = .error .unknownLayout := by
  obtain ⟨h3, -⟩ | ⟨-, -, e⟩ | ⟨lay, -, hl', -⟩ | ⟨lay, -, hl', -⟩ := extract_cases p c
  · exact absurd h3 (Nat.not_lt.mpr h)
  · exact e
  all_goals cases hl.symm.trans hl'

theorem extract_of_lt_need (hl : layoutOf (byteAt p 2) = some lay) (h : c < lay.need) :
    extract p c = .error .shortRecord := by
  obtain ⟨-, e⟩ | ⟨-, hl', -⟩ | ⟨-, -, -, -, e⟩ | ⟨lay', -, hl', hle, -⟩ := extract_cases p c
  · exact e
  · cases hl.symm.trans hl'
  · exact e
  · obtain rfl : lay = lay' := Option.some.inj (hl.symm.trans hl')
    exact absurd h (Nat.not_lt.mpr hle)

theorem extract_of_need_le (hl : layoutOf (byteAt p 2) = some lay) (h : lay.need ≤ c) :
    extract p c = .ok (readFields p lay) := by
  obtain ⟨h3, -⟩ | ⟨-, hl', -⟩ | ⟨lay', -, hl', hlt, -⟩ | ⟨lay', -, hl', -, e⟩ := extract_cases p c
  · exact absurd h3 (Nat.not_lt.mpr ((layoutOf_fits hl).marker.trans h))
  · cases hl.symm.trans hl'
  all_goals obtain rfl : lay = lay' := Option.some.inj (hl.symm.trans hl')
  · exact absurd h (Nat.not_le.mpr hlt)
  · exact e

end

/-- The extractor reads no byte past `P[C - 1]` (R254). -/
theorem extract_congr {p q : List Byte} {c : Nat} (h : ∀ i, i < c → byteAt p i = byteAt q i) :
    extract p c = extract q c := by
  by_cases h3 : c < 3
  · rw [extract_of_lt_three h3, extract_of_lt_three h3]
  have hmarker : byteAt p 2 = byteAt q 2 := h 2 (Nat.not_lt.mp h3)
  cases hq : layoutOf (byteAt q 2) with
  | none => rw [extract_of_unknown hq (Nat.not_lt.mp h3), extract_of_unknown (hmarker ▸ hq) (Nat.not_lt.mp h3)]
  | some lay =>
    have hp : layoutOf (byteAt p 2) = some lay := hmarker ▸ hq
    by_cases hneed : c < lay.need
    · rw [extract_of_lt_need hp hneed, extract_of_lt_need hq hneed]
    · have hle : lay.need ≤ c := Nat.not_lt.mp hneed
      rw [extract_of_need_le hp hle, extract_of_need_le hq hle,
        readFields_congr (layoutOf_fits hp) fun i hi => h i (hi.trans_le hle)]

/-- Settles O46: 19 and 26 are the least `C` of the two layouts. -/
theorem shortRecordFailsClosed : Obligations.ShortRecordFailsClosed := by
  refine ⟨?_, fun _ _ _ => extract_congr⟩
  rintro p c (h3 | ⟨hmarker, hc⟩ | ⟨hmarker, hc⟩)
  · exact extract_of_lt_three h3
  · exact extract_of_lt_need (layoutOf_compact hmarker) hc
  · exact extract_of_lt_need (layoutOf_long hmarker) hc

/-- A rejecting stage's code is the outcome's (40_commands.md R153). -/
theorem decodePipeline_of_error {locked : Bool} {key : Block} {identity frame : Nat → Byte} {length : Byte}
    {code : ResultCode} (h : pipelineStages locked key identity frame length = .error code) :
    decodePipeline locked key identity frame length = (code, zeroReading) := by
  rw [decodePipeline, h]

/-- Settles O45: each marker has its layout or none, and the completion posts the zero reading with the code. -/
theorem markerSelectsTheLayout : Obligations.MarkerSelectsTheLayout := by
  refine ⟨fun p c hmarker hc => extract_of_need_le (lay := compactLayout) (layoutOf_compact hmarker) hc,
    fun p c hmarker hc => extract_of_need_le (lay := longLayout) (layoutOf_long hmarker) hc,
    fun p c hcompact hlong hc => extract_of_unknown (layoutOf_unknown hcompact hlong) hc, fun s h => ?_⟩
  have houtcome : s.decodeOutcome = (.unknownLayout, zeroReading) := decodePipeline_of_error h
  rw [completeDecode_of_outcome houtcome]
  exact ⟨rfl, rfl, rfl, rfl, rfl⟩

end Sys2Proof.Machine

/-! SUPPORT, and the statements of 60_exceptions.md settled. The code a decode posts is read off one stage at a time: a
stage that rejects gives its code, and one that passes leaves the code to the stages after it. -/

namespace Sys2Proof.Machine

/-! ## Every step goes on (R302) -/

/-- Settles O5: the oldest input and, with none left, the engine's turn each leave a next state. -/
theorem everyStepAnswersANextState : Obligations.EveryStepAnswersANextState := by
  intro s
  cases h : s.inputs with
  | nil => exact ⟨_, step_nil h⟩
  | cons x rest => exact ⟨_, step_afterInput h⟩

/-! ## The numbers of the result codes (R280) -/

/-- The codes 8-15 are never posted. -/
theorem code_toNat_le_seven (r : ResultCode) : r.code.toNat ≤ 7 := by
  cases r <;> decide

/-- Settles O30: STATUS shows the code in its bits 7:4, and the eight numbers are those of `ResultCode.code`. -/
theorem resultCodeNumbersInStatus : Obligations.ResultCodeNumbersInStatus :=
  ⟨fun s => ⟨statusWord_extract_code s, code_toNat_le_seven s.result⟩, rfl, rfl, rfl, rfl, rfl, rfl, rfl, rfl⟩

/-! ## The code each stage gives (R289) -/

/-- The code that an answer of the pipeline's stages posts (40_commands.md R153). -/
def answerCode {α : Type} : Except ResultCode α → ResultCode
  | .ok _ => .ok
  | .error code => code

theorem decodePipeline_code (locked : Bool) (key : Block) (identity frame : Nat → Byte) (length : Byte) :
    (decodePipeline locked key identity frame length).1 =
      answerCode (pipelineStages locked key identity frame length) := by
  rcases decodePipeline_cases locked key identity frame length with ⟨rd, hstages, e⟩ | ⟨code, hstages, e⟩ <;>
    rw [hstages, e, answerCode]

/-- The four bytes of the address field, the last one first, are those of the identity (41_validator.md R173). -/
theorem identityMatches_iff_forall (identity frame : Nat → Byte) :
    identityMatches identity frame = true ↔ ∀ i, i < 4 → frame (6 - i) = identity i := by
  simp [identityMatches]

section
variable {α : Type}

theorem answerCode_checkConfig_bind (locked : Bool) (next : Unit → Except ResultCode α) :
    answerCode (checkConfig locked >>= next) =
      if locked = false then .notConfigured else answerCode (next ()) := by
  cases locked <;> rfl

theorem answerCode_validate_bind (identity frame : Nat → Byte) (length : Byte) (next : Unit → Except ResultCode α) :
    answerCode (validate identity frame length >>= next) =
      if length.toNat < 7 ∨ ¬(∀ i : Nat, i < 4 → frame (6 - i) = identity i) then .identityMismatch
      else answerCode (next ()) := by
  rcases validate_cases identity frame length with ⟨hlong, hmatch, e⟩ | ⟨hreject, e⟩ <;> rw [e]
  · rw [identityMatches_iff_forall] at hmatch
    rw [except_bind_ok, if_neg (not_or.mpr ⟨Nat.not_lt.mpr hlong, not_not_intro hmatch⟩)]
  · rw [← Bool.not_eq_true, identityMatches_iff_forall] at hreject
    rw [except_bind_error, if_pos hreject, answerCode]

theorem answerCode_checkLength_bind (length : Byte) (next : Nat → Except ResultCode α) :
    answerCode (checkLength length >>= next) =
      if length.toNat < 20 ∨ 127 < length.toNat then .malformedLength
      else answerCode (next (length.toNat - 18)) := by
  rcases checkLength_cases length with ⟨hlo, hhi, e⟩ | ⟨hout, e⟩ <;> rw [e]
  · rw [except_bind_ok, if_neg (not_or.mpr ⟨Nat.not_lt.mpr hlo, Nat.not_lt.mpr hhi⟩)]
  · rw [except_bind_error, if_pos hout, answerCode]

theorem answerCode_checkIntegrity_bind (p : List Byte) (c : Nat) (next : Unit → Except ResultCode α) :
    answerCode (checkIntegrity p c >>= next) =
      if crc16 (crcRegion p c) ≠ crcRead p then .checksumMismatch else answerCode (next ()) := by
  rcases checkIntegrity_cases p c with ⟨hpass, e⟩ | ⟨hfail, e⟩ <;> rw [e]
  · rw [except_bind_ok, if_neg (not_not_intro hpass)]
  · rw [except_bind_error, if_pos hfail, answerCode]

end

/-- The Field Extractor rejects below three bytes, at an unknown marker, and below the least `C` of the marker's layout
(45_extractor.md R252, R254). -/
theorem answerCode_extract (p : List Byte) (c : Nat) :
    answerCode (extract p c) =
      if c < 3 then .shortRecord
      else if byteAt p 2 ≠ 0x79 ∧ byteAt p 2 ≠ 0x78 then .unknownLayout
      else if (byteAt p 2 = 0x79 ∧ c < 19) ∨ (byteAt p 2 = 0x78 ∧ c < 26) then .shortRecord
      else .ok := by
  by_cases h3 : c < 3
  · rw [extract_of_lt_three h3, if_pos h3, answerCode]
  rw [if_neg h3]
  by_cases hcompact : byteAt p 2 = 0x79
  · have hlayout := layoutOf_compact hcompact
    by_cases hc : c < 19
    · simp [extract_of_lt_need hlayout hc, answerCode, hcompact, hc]
    · simp [extract_of_need_le hlayout (Nat.not_lt.mp hc), answerCode, hcompact, hc]
  by_cases hlong : byteAt p 2 = 0x78
  · have hlayout := layoutOf_long hlong
    by_cases hc : c < 26
    · simp [extract_of_lt_need hlayout hc, answerCode, hlong, hc]
    · simp [extract_of_need_le hlayout (Nat.not_lt.mp hc), answerCode, hlong, hc]
  · rw [extract_of_unknown (layoutOf_unknown hcompact hlong) (Nat.not_lt.mp h3), if_pos ⟨hcompact, hlong⟩, answerCode]

/-- The stages before the extractor in order, each with its own check, and then the extractor's code. -/
theorem decodePipeline_code_stages (locked : Bool) (key : Block) (identity frame : Nat → Byte) (length : Byte) :
    (decodePipeline locked key identity frame length).1 =
      if locked = false then .notConfigured
      else if length.toNat < 7 ∨ ¬(∀ i, i < 4 → frame (6 - i) = identity i) then .identityMismatch
      else if length.toNat < 20 ∨ 127 < length.toNat then .malformedLength
      else if crc16 (crcRegion (plaintext key frame (length.toNat - 18)) (length.toNat - 18)) ≠
          crcRead (plaintext key frame (length.toNat - 18)) then .checksumMismatch
      else answerCode (extract (plaintext key frame (length.toNat - 18)) (length.toNat - 18)) := by
  rw [decodePipeline_code, pipelineStages, answerCode_checkConfig_bind, answerCode_validate_bind,
    answerCode_checkLength_bind, decryptAndExtract, answerCode_checkIntegrity_bind]

/-- Settles O27: after the checksum the code is the extractor's. -/
theorem firstFailingStageGivesTheCode : Obligations.FirstFailingStageGivesTheCode := by
  intro locked key identity frame length
  rw [decodePipeline_code_stages, answerCode_extract]
  rfl

/-! ## OK (R281) -/

/-- A check that rejects with a code other than OK has passed when the code is OK. -/
theorem reject_else_eq_ok_iff {P : Prop} [Decidable P] {code rest : ResultCode} (hcode : code ≠ .ok) :
    (if P then code else rest) = .ok ↔ ¬P ∧ rest = .ok := by
  by_cases h : P <;> simp [h, hcode]

/-- A known layout is that of marker 0x79, which needs 19 bytes, or of 0x78, which needs 26 (45_extractor.md R252). -/
theorem marker_of_layoutOf {m : Byte} {lay : Layout} (h : layoutOf m = some lay) :
    (m = 0x79 ∧ lay.need = 19) ∨ (m = 0x78 ∧ lay.need = 26) := by
  by_cases hcompact : m = 0x79
  · cases (layoutOf_compact hcompact).symm.trans h
    exact .inl ⟨hcompact, rfl⟩
  by_cases hlong : m = 0x78
  · cases (layoutOf_long hlong).symm.trans h
    exact .inr ⟨hlong, rfl⟩
  · cases (layoutOf_unknown hcompact hlong).symm.trans h

/-- The extractor passes a record exactly when its layout is known and all of it there (45_extractor.md R253, R254). -/
theorem answerCode_extract_eq_ok_iff (p : List Byte) (c : Nat) :
    answerCode (extract p c) = .ok ↔ (byteAt p 2 = 0x79 ∧ 19 ≤ c) ∨ (byteAt p 2 = 0x78 ∧ 26 ≤ c) := by
  constructor
  · intro h
    rcases extract_cases p c with ⟨-, e⟩ | ⟨-, -, e⟩ | ⟨lay, -, -, -, e⟩ | ⟨lay, -, hlayout, hneed, -⟩
    · cases e ▸ h
    · cases e ▸ h
    · cases e ▸ h
    · exact (marker_of_layoutOf hlayout).imp (fun ⟨hm, hn⟩ => ⟨hm, hn ▸ hneed⟩) fun ⟨hm, hn⟩ => ⟨hm, hn ▸ hneed⟩
  · rintro (⟨hcompact, hc⟩ | ⟨hlong, hc⟩)
    · rw [extract_of_need_le (layoutOf_compact hcompact) hc, answerCode]
    · rw [extract_of_need_le (layoutOf_long hlong) hc, answerCode]

/-- Settles O28: every check before OK has passed, and the completion's VALID is the test of its code. -/
theorem okExactlyWhenEveryCheckPasses : Obligations.OkExactlyWhenEveryCheckPasses := by
  refine ⟨fun locked key identity frame length => ?_, fun s => decide_eq_true_iff⟩
  rw [decodePipeline_code_stages, reject_else_eq_ok_iff (by decide), reject_else_eq_ok_iff (by decide),
    reject_else_eq_ok_iff (by decide), reject_else_eq_ok_iff (by decide), answerCode_extract_eq_ok_iff]
  simp only [Bool.not_eq_false, not_or, not_not, ne_eq, Nat.not_lt]
  constructor
  · rintro ⟨hlocked, ⟨-, hmatch⟩, ⟨hlo, hhi⟩, hcrc, hlayout⟩
    exact ⟨hlocked, hmatch, hlo, hhi, hcrc, hlayout⟩
  · rintro ⟨hlocked, hmatch, hlo, hhi, hcrc, hlayout⟩
    exact ⟨hlocked, ⟨by omega, hmatch⟩, ⟨hlo, hhi⟩, hcrc, hlayout⟩

end Sys2Proof.Machine

/-! SUPPORT, and the statements of 70_reset_and_hazards.md settled. While a decode runs no host transaction reaches what
the decode reads, so its outcome is fixed at its start; and that outcome asks for no frame byte left unwritten. -/

namespace Sys2Proof.Machine

/-! ## A running decode (70_reset_and_hazards.md R322) -/

/-- In BUSY a host transaction writes at most CTRL and the W1C bits of STATUS (20_memory.md R77, R78): the decode goes
on, with the outcome it had. -/
theorem step_hostTransaction_busy {s t : State} (hb : s.phase = .busy) (hengine : ¬ s.engineNext)
    (hreset : ∀ rest, s.inputs ≠ .assertReset :: rest) (h : step s = .next t) :
    t.phase = .busy ∧ t.decodeOutcome = s.decodeOutcome := by
  obtain ⟨c, ⟨xs, a, fs, rfl⟩, heff⟩ := step_effect h
  cases heff with
  | completes _ hx => exact absurd hx hengine
  | resets hx => exact absurd hx (hreset _)
  | keeps | writesCtrl | dropsBusy => exact ⟨hb, rfl⟩
  | writesStatus =>
    rw [writeStatus_eq]
    exact ⟨hb, rfl⟩
  | _ hp => exact absurd (hb.symm.trans hp) (by decide)

/-- A running decode outlives the host transactions before the engine's turn, which completes it. -/
theorem run_busy_completes {after rest : List Input}
    (hturn : rest = .engineTurn :: after ∨ (rest = [] ∧ after = [])) (before : List Input) :
    ∀ s : State, s.phase = .busy → (∀ x ∈ before, x ≠ .engineTurn ∧ x ≠ .assertReset) → s.inputs = before ++ rest →
      ∃ c : State, s.run (before.length + 1) = .next c.completeDecode ∧ c.inputs = after ∧
        c.decodeOutcome = s.decodeOutcome := by
  induction before with
  | nil =>
    intro s hb _ hx
    have hnext : s.inputs = .engineTurn :: after ∨ (s.inputs = [] ∧ after = []) := by rwa [hx]
    refine ⟨s.consume after, ?_, rfl, rfl⟩
    rw [run_succ_of_next _ (step_engineTurn hnext), runEngine_busy (s := s.consume after) hb]
    rfl
  | cons x before ih =>
    intro s hb hhost hx
    obtain ⟨⟨hengine, hreset⟩, hhost⟩ := List.forall_mem_cons.mp hhost
    obtain ⟨t, hstep⟩ := everyStepAnswersANextState s
    have ⟨htb, hout⟩ : t.phase = .busy ∧ t.decodeOutcome = s.decodeOutcome :=
      step_hostTransaction_busy hb (by simp [State.engineNext, hx, hengine]) (by simp [hx, hreset]) hstep
    obtain ⟨c, hrun, hc, hcout⟩ := ih t htb hhost (by rw [step_inputs hstep, hx]; rfl)
    exact ⟨c, (run_succ_of_next _ hstep).trans hrun, hc, hcout.trans hout⟩

/-- Settles O26: the completion posts the outcome that the decode had at the start of the list. -/
theorem runningDecodeCompletesAtTheEngineTurn : Obligations.RunningDecodeCompletesAtTheEngineTurn := by
  intro s before after hb hhost hx
  obtain ⟨rest, hturn, hinputs⟩ : ∃ rest : List Input,
      (rest = .engineTurn :: after ∨ (rest = [] ∧ after = [])) ∧ s.inputs = before ++ rest := by
    rcases hx with hx | ⟨hx, hafter⟩
    · exact ⟨_, .inl rfl, hx⟩
    · exact ⟨[], .inr ⟨rfl, hafter⟩, by rw [hx, List.append_nil]⟩
  obtain ⟨c, hrun, hc, hout⟩ := run_busy_completes hturn before s hb hhost hinputs
  rw [completeDecode_of_outcome (code := s.decodeOutcome.1) (rd := s.decodeOutcome.2) hout] at hrun
  exact ⟨_, hrun, rfl, rfl, hc, rfl, rfl, rfl, rfl, rfl, rfl⟩

/-! ## Reset (R310, R311) -/

/-- With the configuration locked, a step that is no reset keeps the lock and the key (10_state.md R39, R47). -/
theorem step_locked_cases {s t : State} (hl : s.cfgLocked = true) (h : step s = .next t) :
    (∃ rest, s.inputs = .assertReset :: rest) ∨ (t.cfgLocked = true ∧ t.keyWord = s.keyWord) := by
  obtain ⟨c, ⟨xs, a, fs, rfl⟩, heff⟩ := step_effect h
  cases heff with
  | resets hx => exact .inl ⟨_, hx⟩
  | writesIdentity _ hu | writesKey _ hu => exact absurd (hl.symm.trans hu) (by decide)
  | writesStatus =>
    rw [writeStatus_eq]
    exact .inr ⟨hl, rfl⟩
  | writesFrame _ w v =>
    rw [setFrameWord_changesFrameOnly]
    exact .inr ⟨hl, rfl⟩
  | locks => exact .inr ⟨rfl, rfl⟩
  | _ => exact .inr ⟨hl, rfl⟩

/-- Settles O3: the lock and the key each show that a step from a locked state was a reset. -/
theorem onlyResetClearsTheLock : Obligations.OnlyResetClearsTheLock := by
  intro s t h
  refine ⟨fun hl hu => ?_, fun rest hx => ?_, fun hl hkey => ?_⟩
  · exact (step_locked_cases hl h).resolve_right fun ⟨hl', _⟩ => absurd (hl'.symm.trans hu) (by decide)
  · rw [step_assertReset hx] at h
    cases h
    exact ⟨rfl, rfl, rfl, rfl, rfl⟩
  · exact (step_locked_cases hl h).resolve_right fun ⟨_, hkey'⟩ => hkey hkey'

/-- Settles O2: no frame byte is written after `resetBlock`, so each reads as the draw just made. -/
theorem resetInputResetsInEveryPhase : Obligations.ResetInputResetsInEveryPhase := by
  intro s rest hx
  refine ⟨_, step_assertReset hx, rfl, fun i hi => ?_, rfl, Nat.lt_succ_self s.draws⟩
  simp [State.frameByte, hi]

/-! ## The draw of the unwritten bytes (R315) -/

/-- A byte that has been written, or that lies past the buffer, is not drawn. -/
theorem frameByte_withFrameDraw {s : State} {i : Nat} (d : Nat)
    (h : i < Config.maxTelegram → (Memory.get? s.frame i).isSome = true) :
    State.frameByte { s with frameDraw := d } i = s.frameByte i := by
  unfold State.frameByte
  split
  · next hi =>
    obtain ⟨v, hv⟩ := Option.isSome_iff_exists.mp (h hi)
    rw [hv]
  · rfl

/-- Settles O34: the two frame buffers agree on every byte the decode reads. -/
theorem writtenTelegramIgnoresTheDraw : Obligations.WrittenTelegramIgnoresTheDraw := by
  intro s d hwritten
  exact decodePipeline_congr fun i hread => frameByte_withFrameDraw d fun hi => hwritten i hi hread

end Sys2Proof.Machine
